-- ==== Sys2Proof/Word.lean ====
section
/-! DEFINITION. The widths of the spec: bytes, single bits and 16-bit port values (00_scope R11, R12). -/

namespace Sys2Proof

/-- `u8`: a byte of a page, of the ECC block or of a register (00_scope R10, R12). -/
abbrev Byte := BitVec 8

/-- `u1`: an entry of the Parity Table (10_state R33). -/
abbrev Bit := BitVec 1

/-- `u16`: a command word or the status word, single values of a port (20_memory R55). -/
abbrev Word := BitVec 16

end Sys2Proof
end

