-- ==== Sys2Proof/Syntax.lean ====
section
/-! DEFINITION. The ten commands of the command port (30_encoding R74). -/

namespace Sys2Proof

/-- One command with its operand as 30_encoding R73 assembles it: `d` is the data byte, 0 to 255, taken as it is;
`q` is the quarter index, 0 to 3. Each operand type holds exactly the values its field can hold, so there is no
ill-formed `Instr`: ill-formed are command WORDS (WellFormed.lean). -/
inductive Instr where
  | tbuild
  | poppar (d : Byte)
  | cpmgen (d : Byte)
  | ptlkp (d : Byte)
  | cpmlkp (d : Byte)
  | qinit (q : BitVec 2)
  | qbyte (d : Byte)
  | qemit
  | eclr
  | epage
  deriving DecidableEq, Repr

end Sys2Proof
end

