-- ==== Sys2Proof/WellFormed.lean ====
section
/-! DEFINITION. Which 16-bit words are commands: the match and mask columns of the opcode map, and the two ways in
which a word can fail to be one (30_encoding R72, R74, R75). Decode.lean reads the same words field by field. -/

namespace Sys2Proof

/-- One row of the opcode map: a word `w` selects it when `w & mask = pattern` (30_encoding R74). -/
structure OpcodeRow where
  mnemonic : String
  pattern : Word
  mask : Word
  deriving DecidableEq, Repr

/-- The opcode map, one row for each command (30_encoding R74). -/
def opcodeMap : List OpcodeRow :=
  [ ⟨"TBUILD", 0x1000#16, 0xFFFF#16⟩,
    ⟨"POPPAR", 0x2000#16, 0xFF00#16⟩,
    ⟨"CPMGEN", 0x3000#16, 0xFF00#16⟩,
    ⟨"PTLKP", 0x4000#16, 0xFF00#16⟩,
    ⟨"CPMLKP", 0x5000#16, 0xFF00#16⟩,
    ⟨"QINIT", 0x6000#16, 0xFCFF#16⟩,
    ⟨"QBYTE", 0x7000#16, 0xFF00#16⟩,
    ⟨"QEMIT", 0x8000#16, 0xFFFF#16⟩,
    ⟨"ECLR", 0x9000#16, 0xFFFF#16⟩,
    ⟨"EPAGE", 0xA000#16, 0xFFFF#16⟩ ]

def OpcodeRow.selects (r : OpcodeRow) (w : Word) : Bool := w &&& r.mask == r.pattern

/-- The word is one of the 1288 legal words (30_encoding R75, R76). -/
def Word.wellFormed (w : Word) : Bool := opcodeMap.any (·.selects w)

/-- The first check of R75, its cases (a) and (b): OPC selects some row. -/
def Word.opcAssigned (w : Word) : Bool :=
  opcodeMap.any fun r => w &&& 0xF000#16 == r.pattern &&& 0xF000#16

/-- The second check of R75, its case (c): no bit that the row selected by OPC marks must-be-zero is 1. -/
def Word.mustBeZeroClear (w : Word) : Bool :=
  opcodeMap.all fun r => w &&& 0xF000#16 != r.pattern &&& 0xF000#16 || r.selects w

end Sys2Proof
end

