-- ==== Sys2Proof/Decode.lean ====
section
/-! DEFINITION. The decoder, total over the 65536 words, and the encoder (30_encoding R70 to R77). -/

namespace Sys2Proof

/-- Why a word is no command: the three cases of 30_encoding R75. -/
inductive Illegal where
  /-- R75 (a): OPC is 0x0. -/
  | opcodeZero
  /-- R75 (b): OPC is 0xB to 0xF. -/
  | opcodeUnassigned
  /-- R75 (c): a bit that the command's format marks must-be-zero is 1. -/
  | mustBeZeroSet
  deriving DecidableEq, Repr

/-! ### The fields of a word (30_encoding R71) -/

def opcField (w : Word) : BitVec 4 := w.extractLsb' 12 4
def rsvField (w : Word) : BitVec 2 := w.extractLsb' 10 2
def qfField (w : Word) : BitVec 2 := w.extractLsb' 8 2
def dField (w : Word) : Byte := w.extractLsb' 0 8

/-! ### The three formats (30_encoding R72) -/

/-- Format FN: no operand, bits 11:0 must be zero. -/
def decodeFN (w : Word) (i : Instr) : Except Illegal Instr :=
  if rsvField w = 0 ∧ qfField w = 0 ∧ dField w = 0 then .ok i else .error .mustBeZeroSet

/-- Format FD: the data byte, bits 11:8 must be zero. -/
def decodeFD (w : Word) (mk : Byte → Instr) : Except Illegal Instr :=
  if rsvField w = 0 ∧ qfField w = 0 then .ok (mk (dField w)) else .error .mustBeZeroSet

/-- Format FQ: the quarter field, bits 11:10 and 7:0 must be zero. -/
def decodeFQ (w : Word) (mk : BitVec 2 → Instr) : Except Illegal Instr :=
  if rsvField w = 0 ∧ dField w = 0 then .ok (mk (qfField w)) else .error .mustBeZeroSet

/-- The opcode map read by OPC (30_encoding R74, R75). -/
def decode (w : Word) : Except Illegal Instr :=
  match (opcField w).toNat with
  | 0 => .error .opcodeZero
  | 1 => decodeFN w .tbuild
  | 2 => decodeFD w .poppar
  | 3 => decodeFD w .cpmgen
  | 4 => decodeFD w .ptlkp
  | 5 => decodeFD w .cpmlkp
  | 6 => decodeFQ w .qinit
  | 7 => decodeFD w .qbyte
  | 8 => decodeFN w .qemit
  | 9 => decodeFN w .eclr
  | 10 => decodeFN w .epage
  | _ => .error .opcodeUnassigned

/-! ### The encoder -/

/-- `word = OPC ++ RSV ++ QF ++ D` with RSV = 0 (30_encoding R71). -/
def packWord (opc : BitVec 4) (qf : BitVec 2) (d : Byte) : Word := opc ++ 0#2 ++ qf ++ d

/-- The word of each command (30_encoding R72, R74): the fields its format does not use are zero. -/
def encode (i : Instr) : Word :=
  match i with
  | .tbuild => packWord 0x1 0 0
  | .poppar d => packWord 0x2 0 d
  | .cpmgen d => packWord 0x3 0 d
  | .ptlkp d => packWord 0x4 0 d
  | .cpmlkp d => packWord 0x5 0 d
  | .qinit q => packWord 0x6 q 0
  | .qbyte d => packWord 0x7 0 d
  | .qemit => packWord 0x8 0 0
  | .eclr => packWord 0x9 0 0
  | .epage => packWord 0xA 0 0

/-- The assembler's mnemonic of a command (30_encoding R74, R78). -/
def Instr.mnemonic (i : Instr) : String :=
  match i with
  | .tbuild => "TBUILD"
  | .poppar _ => "POPPAR"
  | .cpmgen _ => "CPMGEN"
  | .ptlkp _ => "PTLKP"
  | .cpmlkp _ => "CPMLKP"
  | .qinit _ => "QINIT"
  | .qbyte _ => "QBYTE"
  | .qemit => "QEMIT"
  | .eclr => "ECLR"
  | .epage => "EPAGE"

/-! ### Words moved as two bytes (20_memory R55): bits 7:0 in the first byte -/

def wordOfBytes (lo hi : Byte) : Word := hi ++ lo
def bytesOfWord (w : Word) : List Byte := [w.extractLsb' 0 8, w.extractLsb' 8 8]

/-- The first word of a string of bytes, decoded, with the rest of the string; `none` when fewer than two bytes are
left, which are no word at all. -/
def decodeBytes (bytes : List Byte) : Option (Except Illegal Instr × List Byte) :=
  match bytes with
  | lo :: hi :: rest => some (decode (wordOfBytes lo hi), rest)
  | _ => none

/-- The command read from a table row's bits `w`, `nbits` of them (always one 16-bit word, 30_encoding R70). -/
def decodeTableWord (nbits w : Nat) : Option Instr :=
  match decode (BitVec.ofNat 16 (w % 2 ^ nbits)) with
  | .ok i => some i
  | .error _ => none

end Sys2Proof
end

