-- ==== Sys2Proof/Config.lean ====
section
/-! DEFINITION. What an instance of the block fixes (CP_MODE and LP_INDEX) and the free values the spec leaves open. -/

namespace Sys2Proof

/-- CP_MODE: how the column parity accumulator combines the bytes of a quarter (00_scope R8, 41_ecc R133). -/
inductive CpMode where
  | cumulative
  | shadowSeed
  | shadowLast
  | unconstrained
  deriving DecidableEq, Repr

/-- LP_INDEX: which index is XORed into the line parity accumulators (00_scope R9, 41_ecc R134). -/
inductive LpIndex where
  | byteOffset
  | quarterIndex
  deriving DecidableEq, Repr

/-- The configuration of one instance, fixed for the whole run (10_state R32, R41). -/
structure Config where
  cpMode : CpMode
  lpIndex : LpIndex
  deriving DecidableEq, Repr

/-- The reference value of CP_MODE and the normative value of LP_INDEX (00_scope R8, R9; 93 U1, U3). -/
def Config.reference : Config := { cpMode := .cumulative, lpIndex := .byteOffset }

/-- FREE VALUE (41_ecc R136, 93 U2, log 9): the `n`-th draw of a column byte under CP_MODE = UNCONSTRAINED. It has no
body, so nothing can be proved of its value. -/
opaque Config.freeByte : Nat → Byte

end Sys2Proof
end

