-- ==== Sys2Proof/Machine/State.lean ====
section
/-! DEFINITION. The state of one instance of the block (10_state), the host's side of its ports (20_memory R51), and
the state after reset (10_state R39, 70_reset R200). -/

namespace Sys2Proof.Machine

/-- Why the model would stop instead of answering a next state. It has no constructor: nobody raises one. Every misuse
of the block is a fault the SPEC describes, recorded in the register FAULT, after which the machine goes on
(60_exceptions R172, R173; log 3), and no address is out of range (20_memory R50). Safe: nothing stops. -/
inductive Fault where
  deriving DecidableEq, Repr

/-- A refusal: the model gives an instruction no meaning. -/
inductive Refusal where
  /-- Raised by `exec` for an instruction with no meaning yet, by its mnemonic; no arm raises it. Safe: it stops. -/
  | notModelled (mnemonic : String)
  deriving DecidableEq, Repr

/-- The values of the register FAULT (60_exceptions R171). Codes 9 to 15 are never produced and have no name
(93 U13, log 10). -/
inductive FaultCode where
  | noFault
  | illegalCommand
  | tablesNotBuilt
  | quarterNotOpen
  | quarterBusy
  | quarterOverflow
  | quarterIncomplete
  | uninitialisedPage
  | uninitialisedRead
  deriving DecidableEq, Repr

/-- One action of the host, each an atomic step (20_memory R51, 30_encoding R79). -/
inductive HostAction where
  /-- Present one command word. -/
  | command (w : Word)
  /-- `PW a, v` -/
  | pageWrite (a : BitVec 9) (v : Byte)
  /-- `PR a` -/
  | pageRead (a : BitVec 9)
  /-- `ER a` -/
  | eccRead (a : BitVec 4)
  /-- `RR` -/
  | resultRead
  /-- `SR` -/
  | statusRead
  /-- `RESET` -/
  | reset
  deriving DecidableEq, Repr

/-- What a read port returns to the host (20_memory R51; log 2). -/
inductive Answer where
  | byte (v : Byte)
  | word (v : Word)
  /-- A read of a location that holds no value returns nothing (60_exceptions R176). -/
  | noValue
  deriving DecidableEq, Repr

/-- The bytes of a buffer that hold a value, by rising address. An address that is not listed holds NO value: its
written bit PW[a] or EW[a] is 0 (10_state R36, R37; log 8). -/
abbrev Memory := List Host.Cell

/-- The block's state (10_state R22 to R37), and below it the model's own four fields. -/
@[ext]
structure State where
  /-- RES, the result register (10_state R22) -/
  res : Byte
  /-- RESW, the written bit of RES (10_state R22) -/
  resw : Bool
  /-- CP, the column parity accumulator (10_state R23) -/
  cp : Byte
  /-- LP0, the first line parity accumulator (10_state R24) -/
  lp0 : Byte
  /-- LP1, the second line parity accumulator (10_state R25) -/
  lp1 : Byte
  /-- J, the byte counter of the quarter, 0 to 128 (10_state R26) -/
  j : Byte
  /-- Q, the index of the current quarter (10_state R27) -/
  q : BitVec 2
  /-- QOPEN (10_state R28) -/
  qopen : Bool
  /-- TB, the tables-built flag (10_state R29) -/
  tb : Bool
  /-- FAULT (10_state R30) -/
  fault : FaultCode
  /-- PT, the Parity Table (10_state R33) -/
  pt : Vector Bit 256
  /-- CPMT, the Column Parity Mask Table (10_state R34) -/
  cpmt : Vector Byte 256
  /-- PAGEBUF with its written bits PW (10_state R36) -/
  pageBuf : Memory
  /-- ECCBUF with its written bits EW (10_state R37) -/
  eccBuf : Memory
  /-- CP_MODE and LP_INDEX of this instance (10_state R41; the model's own field, log 4) -/
  cfg : Config
  /-- The host's actions not yet taken, oldest first (20_memory R60; the model's own field, log 1) -/
  pending : List HostAction
  /-- What the read ports have returned to the host, oldest first (20_memory R51; the model's own field, log 2) -/
  answers : List Answer
  /-- How many free draws have been taken (41_ecc R136; the model's own field, log 9) -/
  draws : Nat
  deriving DecidableEq, Repr

/-- The block after reset and at power-on (10_state R39, 70_reset R200). J, Q, QOPEN, TB, FAULT and every written bit
are the spec's zeros. DESIGN CHOICE: RES, CP, LP0, LP1, PT and CPMT, to which the spec gives no value, hold zeros
(logs 5, 6, 7), and the model's own fields hold what logs 1, 2, 4 and 9 name. -/
def State.reset : State where
  res := 0
  resw := false
  cp := 0
  lp0 := 0
  lp1 := 0
  j := 0
  q := 0
  qopen := false
  tb := false
  fault := .noFault
  pt := Vector.replicate 256 0
  cpmt := Vector.replicate 256 0
  pageBuf := []
  eccBuf := []
  cfg := Config.reference
  pending := []
  answers := []
  draws := 0

end Sys2Proof.Machine
end

