-- ==== Sys2Proof/Machine/Operands.lean ====
section
/-! DEFINITION. The value functions of the block: the fold unit, the column-parity-mask generator, the table contents,
the column parity update and the line index (40_tables R100 to R106, 41_ecc R133 to R135). -/

namespace Sys2Proof.Machine

/-! ### Constants (00_scope R6, R7) -/

/-- M, the seven column masks, indices 0 to 6 in this order. -/
def columnMasks : List Byte := [0x55, 0x33, 0x0F, 0x00, 0xAA, 0xCC, 0xF0]

/-- CP_SEED -/
def cpSeed : Byte := 0x77

/-- LP_SEED, of both line parity accumulators. -/
def lpSeed : Byte := 0x7F

/-- The output mask on line_parity_0. -/
def lp0OutputMask : Byte := 0x7F

/-- QUARTER_BYTES -/
def quarterBytes : Nat := 128

/-- PAGE_BYTES, the size of PAGEBUF (20_memory R50). -/
def pageBytes : Nat := 512

/-- ECC_GROUP_BYTES -/
def groupBytes : Nat := 3

/-- ECC_BLOCK_BYTES, the size of ECCBUF (20_memory R50). -/
def eccBytes : Nat := 16

/-! ### The fold unit and the generator -/

/-- One step of the fold: `t ^ (t >> n)`, truncated to 8 bits (40_tables R100). -/
def foldStep (t : Byte) (n : Nat) : Byte := t ^^^ (t >>> n)

/-- `Parity(b)`, the XOR fold (40_tables R100). -/
def parity (b : Byte) : Bit :=
  (foldStep (foldStep (foldStep b 1) 2) 4).extractLsb' 0 1

/-- The loop over the seven masks: bit `i` of the result is `p (b & M[i])` (40_tables R103, and R106 with the Parity
Table for `p`). -/
def maskLanes (p : Byte → Bit) (b : Byte) : Byte :=
  columnMasks.zipIdx.foldl (fun m lane => m ||| ((p (b &&& lane.1)).setWidth 8 <<< lane.2)) 0

/-- `ColumnParityMask(b)` (40_tables R103). -/
def columnParityMask (b : Byte) : Byte := maskLanes parity b

/-! ### The tables -/

/-- `PT[b]` (00_scope R13). -/
def ptAt (pt : Vector Bit 256) (b : Byte) : Bit := pt[b.toNat]'(b.isLt)

/-- `CPMT[b]` (00_scope R13). -/
def cpmtAt (cpmt : Vector Byte 256) (b : Byte) : Byte := cpmt[b.toNat]'(b.isLt)

/-- What the first loop of TBUILD leaves in PT (40_tables R106). -/
def builtPt : Vector Bit 256 := Vector.ofFn fun b => parity (BitVec.ofNat 8 b.val)

/-- What the second loop of TBUILD leaves in CPMT, computed from the Parity Table `pt` (40_tables R106). -/
def builtCpmt (pt : Vector Bit 256) : Vector Byte 256 :=
  Vector.ofFn fun b => maskLanes (ptAt pt) (BitVec.ofNat 8 b.val)

/-! ### The accumulators' updates -/

/-- `CPStep(cp, d)`, selected by CP_MODE (41_ecc R133). -/
def cpStep (mode : CpMode) (cpmt : Vector Byte 256) (cp d : Byte) : Byte :=
  match mode with
  | .cumulative => cp ^^^ cpmtAt cpmt d
  | .shadowSeed => cp
  | .shadowLast => cpSeed ^^^ cpmtAt cpmt d
  | .unconstrained => cp

/-- `LineIndex()`, selected by LP_INDEX (41_ecc R134): J before its increment, or Q zero-extended. -/
def lineIndex (ix : LpIndex) (j : Byte) (q : BitVec 2) : Byte :=
  match ix with
  | .byteOffset => j
  | .quarterIndex => q.setWidth 8

end Sys2Proof.Machine
end

