-- ==== Sys2Proof/Machine/Ops.lean ====
section
/-! DEFINITION. The operations every command and port action is made of: bytes of a buffer, entering and leaving the
faulted state, the result register, and the steps of a quarter (20_memory R50 to R53, 60_exceptions R172 to R177,
41_ecc R131 to R136, R143). -/

namespace Sys2Proof.Machine

/-! ### The bytes of a buffer -/

/-- The byte at address `a`, or `none` when it holds no value (its written bit is 0). -/
def Memory.read (m : Memory) (a : Nat) : Option Byte :=
  match m with
  | [] => none
  | (b, v) :: rest => if a = b then some v else Memory.read rest a

/-- Write `v` at address `a` and set its written bit. Keeps the addresses rising and without repeats. -/
def Memory.write (m : Memory) (a : Nat) (v : Byte) : Memory :=
  match m with
  | [] => [(a, v)]
  | (b, u) :: rest =>
    if a < b then (a, v) :: (b, u) :: rest
    else if a = b then (a, v) :: rest
    else (b, u) :: Memory.write rest a v

/-- The canonical form of a buffer of `size` bytes: addresses strictly rising, each inside the buffer. An address that
is not listed holds no value, so no entry can repeat what an unlisted address reads as. -/
abbrev Memory.wf (size : Nat) (m : Memory) : Prop :=
  m.Pairwise (fun c d => c.1 < d.1) ∧ ∀ c ∈ m, c.1 < size

/-- The `n` bytes from address `a` on, in increasing order, or `none` when one of them holds no value. -/
def Memory.readRun (m : Memory) (a : Nat) (n : Nat) : Option (List Byte) :=
  match n with
  | 0 => some []
  | k + 1 =>
    match m.read a, Memory.readRun m (a + 1) k with
    | some b, some rest => some (b :: rest)
    | _, _ => none

/-- Write 0x00 at addresses `0` to `n - 1`. -/
def Memory.clearTo (m : Memory) (n : Nat) : Memory :=
  match n with
  | 0 => m
  | k + 1 => Memory.write (Memory.clearTo m k) k 0

/-! ### The faulted state -/

/-- FAULT ENTRY, the one fault path of the block (60_exceptions R172, R179): FAULT takes the code if it holds none, and
nothing else changes. The first fault wins (R174). -/
def raise (c : FaultCode) (s : State) : State :=
  if s.fault = .noFault then { s with fault := c } else s

/-- Run an effect only outside the faulted state; in it the command or page write is discarded and nothing changes
(60_exceptions R173, first check of R175). `done` is the state the effect leaves. -/
def unlessFaulted (s done : State) : State :=
  if s.fault = .noFault then done else s

/-- RESET, the only way out of the faulted state (60_exceptions R177, 70_reset R200): every state element of the block
takes its reset value. The model's own fields stay: the configuration is fixed, the host's queue and answers are not
the block's, and the count of free draws goes on (log 14). -/
def resetBlock (s : State) : State :=
  { State.reset with cfg := s.cfg, pending := s.pending, answers := s.answers, draws := s.draws }

/-! ### The result register and the answers to the host -/

/-- `RES <- v; RESW <- 1` (10_state R22). -/
def writeRes (v : Byte) (s : State) : State :=
  { s with res := v, resw := true }

/-- Return `x` to the host through a read port. -/
def answer (x : Answer) (s : State) : State :=
  { s with answers := s.answers ++ [x] }

/-- A read port: the byte, or no value and the fault UNINITIALISED_READ (60_exceptions R176). -/
def answerByte (v : Option Byte) (s : State) : State :=
  match v with
  | some b => answer (.byte b) s
  | none => raise .uninitialisedRead (answer .noValue s)

/-! ### The steps of a quarter -/

/-- Start quarter `q`: seed the accumulators and clear the byte counter (41_ecc R131, R143). -/
def seedQuarter (q : BitVec 2) (s : State) : State :=
  { s with q := q, cp := cpSeed, lp0 := lpSeed, lp1 := lpSeed, j := 0 }

/-- Accumulate one data byte (41_ecc R132 to R135, R143). -/
def accumulate (s : State) (d : Byte) : State :=
  let odd := ptAt s.pt d = 1
  let x := lineIndex s.cfg.lpIndex s.j s.q
  { s with
    cp := cpStep s.cfg.cpMode s.cpmt s.cp d
    lp0 := if odd then s.lp0 ^^^ ~~~x else s.lp0
    lp1 := if odd then s.lp1 ^^^ x else s.lp1
    j := s.j + 1 }

/-- The column byte a group is emitted with: CP, or a free draw under UNCONSTRAINED (41_ecc R136). -/
def columnByte (s : State) : Byte :=
  match s.cfg.cpMode with
  | .cumulative => s.cp
  | .shadowSeed => s.cp
  | .shadowLast => s.cp
  | .unconstrained => Config.freeByte s.draws

/-- How many free draws have been taken once the column byte is drawn (41_ecc R136). -/
def drawsAfterEmit (s : State) : Nat :=
  match s.cfg.cpMode with
  | .cumulative => s.draws
  | .shadowSeed => s.draws
  | .shadowLast => s.draws
  | .unconstrained => s.draws + 1

/-- The first address of the group of quarter `q`: `3 * q` (41_ecc R130, 20_memory R53). -/
def groupBase (q : BitVec 2) : Nat := groupBytes * q.toNat

/-- Write the 3-byte group of the current quarter (41_ecc R136, R143; 20_memory R53, R54). -/
def emitGroup (s : State) : State :=
  let a := groupBase s.q
  { s with
    eccBuf := ((s.eccBuf.write a (columnByte s)).write (a + 1) (s.lp0 &&& lp0OutputMask)).write (a + 2) s.lp1
    draws := drawsAfterEmit s }

/-- One whole quarter of a page: seed, accumulate its bytes in offset order, write its group (41_ecc R143). -/
def encodeQuarter (page : List Byte) (s : State) (q : BitVec 2) : State :=
  emitGroup (((page.drop (quarterBytes * q.toNat)).take quarterBytes).foldl accumulate (seedQuarter q s))

/-- The four quarters of a page, in order (41_ecc R143). -/
def encodePage (page : List Byte) (s : State) : State :=
  [0, 1, 2, 3].foldl (encodeQuarter page) s

end Sys2Proof.Machine
end

