-- ==== Sys2Proof/Machine/Ecc.lean ====
section
/-! DEFINITION. The commands of the Hamming ECC encoder (41_ecc). The checks stand in the order of 60_exceptions R175. -/

namespace Sys2Proof.Machine

/-- QINIT (41_ecc R131). -/
def execQinit (q : BitVec 2) (s : State) : Host.Outcome State Fault Refusal :=
  .next (unlessFaulted s
    (if s.qopen = true then raise .quarterBusy s
     else { seedQuarter q s with qopen := true }))

/-- QBYTE (41_ecc R132). -/
def execQbyte (d : Byte) (s : State) : Host.Outcome State Fault Refusal :=
  .next (unlessFaulted s
    (if s.tb = false then raise .tablesNotBuilt s
     else if s.qopen = false then raise .quarterNotOpen s
     else if s.j = 128 then raise .quarterOverflow s
     else accumulate s d))

/-- QEMIT (41_ecc R136). -/
def execQemit (s : State) : Host.Outcome State Fault Refusal :=
  .next (unlessFaulted s
    (if s.qopen = false then raise .quarterNotOpen s
     else if s.j < 128 then raise .quarterIncomplete s
     else { emitGroup s with qopen := false }))

/-- ECLR (41_ecc R142). -/
def execEclr (s : State) : Host.Outcome State Fault Refusal :=
  .next (unlessFaulted s { s with eccBuf := s.eccBuf.clearTo eccBytes })

/-- EPAGE (41_ecc R143). The page is read whole before anything is written, so a byte with no value leaves the state
as it was but for FAULT; the order of the reads is unobservable (20_memory R52). -/
def execEpage (s : State) : Host.Outcome State Fault Refusal :=
  .next (unlessFaulted s
    (if s.tb = false then raise .tablesNotBuilt s
     else if s.qopen = true then raise .quarterBusy s
     else
      match s.pageBuf.readRun 0 pageBytes with
      | none => raise .uninitialisedPage s
      | some page => encodePage page s))

end Sys2Proof.Machine
end

