-- ==== Sys2Proof/Machine/Tables.lean ====
section
/-! DEFINITION. The commands of the fold unit, the generator and the lookup tables (40_tables). -/

namespace Sys2Proof.Machine

/-- TBUILD (40_tables R106): fill PT, compute CPMT from it, set TB. -/
def execTbuild (s : State) : Host.Outcome State Fault Refusal :=
  .next (unlessFaulted s { s with pt := builtPt, cpmt := builtCpmt builtPt, tb := true })

/-- POPPAR (40_tables R102). -/
def execPoppar (d : Byte) (s : State) : Host.Outcome State Fault Refusal :=
  .next (unlessFaulted s (writeRes ((parity d).setWidth 8) s))

/-- CPMGEN (40_tables R105). -/
def execCpmgen (d : Byte) (s : State) : Host.Outcome State Fault Refusal :=
  .next (unlessFaulted s (writeRes (columnParityMask d) s))

/-- PTLKP (40_tables R110). -/
def execPtlkp (d : Byte) (s : State) : Host.Outcome State Fault Refusal :=
  .next (unlessFaulted s
    (if s.tb = false then raise .tablesNotBuilt s
     else writeRes ((ptAt s.pt d).setWidth 8) s))

/-- CPMLKP (40_tables R111). -/
def execCpmlkp (d : Byte) (s : State) : Host.Outcome State Fault Refusal :=
  .next (unlessFaulted s
    (if s.tb = false then raise .tablesNotBuilt s
     else writeRes (cpmtAt s.cpmt d) s))

end Sys2Proof.Machine
end

