-- ==== Sys2Proof/Machine/Dispatch.lean ====
section
/-! DEFINITION. One command's meaning: one arm per constructor of Instr, each one direct call. -/

namespace Sys2Proof.Machine

def exec (i : Instr) (s : State) : Host.Outcome State Fault Refusal :=
  match i with
  | .tbuild => Sys2Proof.Machine.execTbuild s
  | .poppar d => Sys2Proof.Machine.execPoppar d s
  | .cpmgen d => Sys2Proof.Machine.execCpmgen d s
  | .ptlkp d => Sys2Proof.Machine.execPtlkp d s
  | .cpmlkp d => Sys2Proof.Machine.execCpmlkp d s
  | .qinit q => Sys2Proof.Machine.execQinit q s
  | .qbyte d => Sys2Proof.Machine.execQbyte d s
  | .qemit => Sys2Proof.Machine.execQemit s
  | .eclr => Sys2Proof.Machine.execEclr s
  | .epage => Sys2Proof.Machine.execEpage s

end Sys2Proof.Machine
end

