-- ==== Sys2Proof/Machine/Flags.lean ====
section
/-! DEFINITION. The status word, the block's only flags (10_state R31, R40), and the numbers of the fault codes
(60_exceptions R171). -/

namespace Sys2Proof.Machine

/-- The 4-bit code of each fault (60_exceptions R171). -/
def faultBits (c : FaultCode) : BitVec 4 :=
  match c with
  | .noFault => 0
  | .illegalCommand => 1
  | .tablesNotBuilt => 2
  | .quarterNotOpen => 3
  | .quarterBusy => 4
  | .quarterOverflow => 5
  | .quarterIncomplete => 6
  | .uninitialisedPage => 7
  | .uninitialisedRead => 8

/-- `STATUS = J[7:0] ++ FAULT[3:0] ++ Q[1:0] ++ QOPEN ++ TB` (10_state R31). -/
def status (s : State) : Word :=
  s.j ++ faultBits s.fault ++ s.q ++ BitVec.ofBool s.qopen ++ BitVec.ofBool s.tb

end Sys2Proof.Machine
end

