-- ==== Sys2Proof/Machine/Ports.lean ====
section
/-! DEFINITION. The host's actions at the ports of the block (20_memory R51, 60_exceptions R173, R176). -/

namespace Sys2Proof.Machine

/-- Present one command word. A legal word is executed; an illegal one raises ILLEGAL_COMMAND (30_encoding R75), which
in the faulted state changes nothing, as R173 says of illegal words too. -/
def presentWord (w : Word) (s : State) : Host.Outcome State Fault Refusal :=
  match decode w with
  | .ok i => exec i s
  | .error _ => .next (raise .illegalCommand s)

/-- `PW a, v`, discarded in the faulted state (60_exceptions R173). -/
def pageWrite (a : BitVec 9) (v : Byte) (s : State) : Host.Outcome State Fault Refusal :=
  .next (unlessFaulted s { s with pageBuf := s.pageBuf.write a.toNat v })

/-- `PR a` -/
def pageRead (a : BitVec 9) (s : State) : Host.Outcome State Fault Refusal :=
  .next (answerByte (s.pageBuf.read a.toNat) s)

/-- `ER a` -/
def eccRead (a : BitVec 4) (s : State) : Host.Outcome State Fault Refusal :=
  .next (answerByte (s.eccBuf.read a.toNat) s)

/-- `RR` -/
def resultRead (s : State) : Host.Outcome State Fault Refusal :=
  .next (answerByte (if s.resw then some s.res else none) s)

/-- `SR`, which never faults (10_state R31). -/
def statusRead (s : State) : Host.Outcome State Fault Refusal :=
  .next (answer (.word (status s)) s)

/-- `RESET` (70_reset R200). -/
def hostReset (s : State) : Host.Outcome State Fault Refusal :=
  .next (resetBlock s)

/-- One action of the host (20_memory R51). -/
def act (x : HostAction) (s : State) : Host.Outcome State Fault Refusal :=
  match x with
  | .command w => presentWord w s
  | .pageWrite a v => pageWrite a v s
  | .pageRead a => pageRead a s
  | .eccRead a => eccRead a s
  | .resultRead => resultRead s
  | .statusRead => statusRead s
  | .reset => hostReset s

/-- The next step of the whole system: the host's oldest action is taken from the queue and done. With no action left
the block waits and nothing changes (10_state R20, 70_reset R201; log 1). -/
def nextAction (s : State) : Host.Outcome State Fault Refusal :=
  match s.pending with
  | [] => .next s
  | x :: rest => act x { s with pending := rest }

end Sys2Proof.Machine
end

