-- ==== Sys2Proof/Machine/Step.lean ====
section
/-! DEFINITION. One step of the block with its host, and how a command is placed for the next step (log 15). -/

namespace Sys2Proof.Machine

/-- One step: the host's oldest action, done whole (20_memory R57, R60). -/
def step (s : State) : Host.Outcome State Fault Refusal := nextAction s

/-- The host's next action presents the word whose bits are `w`. The block has no program counter and fetches nothing
(10_state R21, 20_memory R63): this stands for the host presenting the command (log 15). -/
def State.withFetchWord (s : State) (nbits w : Nat) : State :=
  { s with pending := .command (BitVec.ofNat 16 (w % 2 ^ nbits)) :: s.pending }

end Sys2Proof.Machine
end

