-- ==== Sys2Proof/Machine/Protocol.lean ====
section
/-! DEFINITION. The host's duties toward the block (60_exceptions R185 to R188). They constrain the host; no step of the
block depends on anything here. -/

namespace Sys2Proof.Machine

/-- The host action that presents a command (30_encoding R79). -/
def present (i : Instr) : HostAction := .command (encode i)

/-- Before its first page the host issues TBUILD once (60_exceptions R186). -/
def bootProtocol : List HostAction := [present .tbuild]

/-- `PW a, v` for the bytes of a page, from address 0 on (60_exceptions R185, duty 1). -/
def pageWrites (page : List Byte) : List HostAction :=
  page.zipIdx.map fun b => .pageWrite (BitVec.ofNat 9 b.2) b.1

/-- `ER 0` to `ER 15` (60_exceptions R185, duty 4). -/
def eccReads : List HostAction :=
  (List.range eccBytes).map fun a => .eccRead (BitVec.ofNat 4 a)

/-- The four duties for one page, in order; ECLR may be left out after the first page (60_exceptions R185). -/
def pageProtocol (page : List Byte) (clear : Bool) : List HostAction :=
  pageWrites page ++ (if clear then [present .eclr] else []) ++ [present .epage] ++ eccReads

/-! ### The card images (60_exceptions R187, R188) -/

/-- Pages of a card: 1024 card blocks of 16 pages. -/
def cardPages : Nat := 1024 * 16

/-- Record `n` of the output: the page, then its ECC block. -/
def imageRecord (page ecc : List Byte) : List Byte := page ++ ecc

/-- The output image: the records in page order. -/
def outputImage (records : List (List Byte × List Byte)) : List Byte :=
  (records.map fun r => imageRecord r.1 r.2).flatten

/-- Where record `n` starts in the output image. -/
def recordOffset (n : Nat) : Nat := (pageBytes + eccBytes) * n

/-- Where page `n` starts in the input image. -/
def inputOffset (n : Nat) : Nat := pageBytes * n

/-- The card block of page `n`, and the page's place in it. -/
def cardBlock (n : Nat) : Nat × Nat := (n / 16, n % 16)

/-- The host's size check, before it presents any page (60_exceptions R188). -/
def inputAccepted (image : List Byte) : Bool := image.length == cardPages * pageBytes

end Sys2Proof.Machine
end

