-- ==== Sys2Proof/Safety.lean ====
section
/-! DEFINITION. What counts as a safe run, and the invariants of the block that claims name. -/

namespace Sys2Proof.Safety

open Sys2Proof.Machine

/-- The block is not in the faulted state, which is never a successful end of a run (60_exceptions R173). -/
def Running (s : State) : Prop := s.fault = .noFault

/-- The machine answered a next state, and it is not faulted. -/
def Completes (o : Host.Outcome State Fault Refusal) : Prop := ∃ t, o = .next t ∧ Running t

/-- Both buffers are in their canonical form, every address inside the buffer (20_memory R50). -/
def BuffersCanonical (s : State) : Prop :=
  Memory.wf pageBytes s.pageBuf ∧ Memory.wf eccBytes s.eccBuf

/-- PT and CPMT hold the values of 40_tables R112. -/
def TablesBuilt (s : State) : Prop :=
  ∀ b : Byte, ptAt s.pt b = parity b ∧ cpmtAt s.cpmt b = columnParityMask b

/-- TB = 1 only when the tables are built (10_state R29, R35). -/
def TablesSound (s : State) : Prop := s.tb = true → TablesBuilt s

/-- J is 0 to 128 (10_state R26); a closed quarter has J 0 or 128; J counts nothing before the tables are built. -/
def CounterSound (s : State) : Prop :=
  s.j ≤ 128 ∧ (s.qopen = false → s.j = 0 ∨ s.j = 128) ∧ (s.tb = false → s.j = 0)

/-- Bit 7 of LP1 is 0 (10_state R25), bits 3 and 7 of CP are 0 (41_ecc R139), and LP0 and LP1 are equal or complements
(the closed form of 41_ecc R137). -/
def AccumulatorsSound (s : State) : Prop :=
  s.lp1.getLsbD 7 = false ∧ s.cp.getLsbD 3 = false ∧ s.cp.getLsbD 7 = false ∧
    (s.lp0 ^^^ s.lp1 = 0x00 ∨ s.lp0 ^^^ s.lp1 = 0xFF)

/-- Every written group byte has the zero bits of 41_ecc R139, and a written byte of 12 to 15 is 0x00 (R145, 93 U5). -/
def EccBufSound (s : State) : Prop :=
  (∀ k < 4, ∀ v : Byte,
    (s.eccBuf.read (3 * k) = some v → s.cfg.cpMode ≠ .unconstrained →
      v.getLsbD 3 = false ∧ v.getLsbD 7 = false) ∧
    (s.eccBuf.read (3 * k + 1) = some v → v.getLsbD 7 = false) ∧
    (s.eccBuf.read (3 * k + 2) = some v → v.getLsbD 7 = false)) ∧
  (∀ a, 12 ≤ a → a < 16 → ∀ v : Byte, s.eccBuf.read a = some v → v = 0x00)

end Sys2Proof.Safety
end

