-- ==== Sys2Proof/Certificates/Slice0/Obligations.lean ====
section
/-! DEFINITION. The statements for the provers, one `def Obligations.<Name> : Prop` each, and the words they use. -/

open Sys2Proof Sys2Proof.Machine Sys2Proof.Safety

/-! ### Words of the statements -/

/-- A sequence of commands, each executed on the state the one before left. -/
def Sys2Proof.Claims.execAll : List Instr → State → Host.Outcome State Fault Refusal
  | [], s => .next s
  | i :: is, s =>
    match exec i s with
    | .next t => Sys2Proof.Claims.execAll is t
    | .fault r => .fault r
    | .refused r => .refused r

/-- The word is illegal. -/
def Sys2Proof.Claims.IsIllegal (w : Word) : Prop := ∃ e, decode w = .error e

/-- The command reads the tables, so that it needs TB = 1 (60_exceptions R171, code 2). -/
def Sys2Proof.Claims.needsTables : Instr → Bool
  | .ptlkp _ | .cpmlkp _ | .qbyte _ | .epage => true
  | .tbuild | .poppar _ | .cpmgen _ | .qinit _ | .qemit | .eclr => false

/-- The command works on an open quarter (60_exceptions R171, code 3). -/
def Sys2Proof.Claims.needsOpenQuarter : Instr → Bool
  | .qbyte _ | .qemit => true
  | .tbuild | .poppar _ | .cpmgen _ | .ptlkp _ | .cpmlkp _ | .qinit _ | .eclr | .epage => false

/-- The command needs every quarter closed (60_exceptions R171, code 4). -/
def Sys2Proof.Claims.needsClosedQuarter : Instr → Bool
  | .qinit _ | .epage => true
  | .tbuild | .poppar _ | .cpmgen _ | .ptlkp _ | .cpmlkp _ | .qbyte _ | .qemit | .eclr => false

/-- The checks 3 to 6 of 60_exceptions R175 for one command, in that order, each with the condition that fails it. -/
def Sys2Proof.Claims.commandChecks (i : Instr) (s : State) : List (FaultCode × Bool) :=
  [ (.tablesNotBuilt, Sys2Proof.Claims.needsTables i && !s.tb),
    (.quarterNotOpen, Sys2Proof.Claims.needsOpenQuarter i && !s.qopen),
    (.quarterBusy, Sys2Proof.Claims.needsClosedQuarter i && s.qopen),
    (.quarterOverflow, i.mnemonic == "QBYTE" && s.j == 128),
    (.quarterIncomplete, i.mnemonic == "QEMIT" && decide (s.j < 128)),
    (.uninitialisedPage, i.mnemonic == "EPAGE" && (List.range 512).any fun a => (s.pageBuf.read a).isNone) ]

/-- What FAULT holds after a word is presented, by the order of 60_exceptions R175: the faulted state first, then an
illegal word, then the first check of the command that fails. -/
def Sys2Proof.Claims.faultAfter (w : Word) (s : State) : FaultCode :=
  if s.fault = .noFault then
    match decode w with
    | .error _ => .illegalCommand
    | .ok i => (((Sys2Proof.Claims.commandChecks i s).find? (·.2)).map (·.1)).getD .noFault
  else s.fault

/-- EPAGE executes normally (41_ecc R143). -/
def Sys2Proof.Claims.EpageReady (s : State) : Prop :=
  s.fault = .noFault ∧ s.tb = true ∧ s.qopen = false ∧ ∀ a < 512, (s.pageBuf.read a).isSome

/-- A quarter can be opened and fed (41_ecc R131, R132). -/
def Sys2Proof.Claims.QuarterReady (s : State) : Prop :=
  s.fault = .noFault ∧ s.tb = true ∧ s.qopen = false

/-- The 128 bytes of quarter `q` of the page buffer, by offset (41_ecc R130). -/
def Sys2Proof.Claims.quarterOf (s : State) (q : Nat) : List Byte :=
  (List.range 128).map fun j => (s.pageBuf.read (128 * q + j)).getD 0

/-- QINIT q, one QBYTE for each byte, QEMIT (41_ecc R137). -/
def Sys2Proof.Claims.quarterCommands (q : BitVec 2) (bytes : List Byte) : List Instr :=
  .qinit q :: (bytes.map .qbyte ++ [.qemit])

/-- `O`, the offsets of the odd-parity bytes (41_ecc R137). -/
def Sys2Proof.Claims.oddOffsets (pt : Vector Bit 256) (bytes : List Byte) : List Nat :=
  (bytes.zipIdx.filter fun b => ptAt pt b.1 == 1).map Prod.snd

/-- `idx(j)` (41_ecc R137). -/
def Sys2Proof.Claims.lineIdx (ix : LpIndex) (q : Nat) (j : Nat) : Byte :=
  match ix with
  | .byteOffset => BitVec.ofNat 8 j
  | .quarterIndex => BitVec.ofNat 8 q

/-- `X`, the XOR of `idx(j)` over `O` (41_ecc R137). -/
def Sys2Proof.Claims.lineXor (ix : LpIndex) (q : Nat) (pt : Vector Bit 256) (bytes : List Byte) : Byte :=
  ((Sys2Proof.Claims.oddOffsets pt bytes).map (Sys2Proof.Claims.lineIdx ix q)).foldr (· ^^^ ·) 0

/-- `e0` is a column byte the closed form allows (41_ecc R137). -/
def Sys2Proof.Claims.IsColumnByte (mode : CpMode) (cpmt : Vector Byte 256) (bytes : List Byte) (e0 : Byte) : Prop :=
  match mode with
  | .cumulative => e0 = 0x77 ^^^ (bytes.map (cpmtAt cpmt)).foldr (· ^^^ ·) 0
  | .shadowSeed => e0 = 0x77
  | .shadowLast => ∃ b, bytes.getLast? = some b ∧ e0 = 0x77 ^^^ cpmtAt cpmt b
  | .unconstrained => True

/-- ECCBUF holds the group of the quarter `q` with these bytes, in closed form, at offsets 3q, 3q + 1 and 3q + 2
(41_ecc R130, R137). -/
def Sys2Proof.Claims.HoldsGroup (s : State) (q : Nat) (bytes : List Byte) (m : Memory) : Prop :=
  let x := Sys2Proof.Claims.lineXor s.cfg.lpIndex q s.pt bytes
  (∃ e0, m.read (3 * q) = some e0 ∧ Sys2Proof.Claims.IsColumnByte s.cfg.cpMode s.cpmt bytes e0) ∧
  m.read (3 * q + 1) =
    some (if (Sys2Proof.Claims.oddOffsets s.pt bytes).length % 2 = 0 then 0x7F ^^^ x else x) ∧
  m.read (3 * q + 2) = some (0x7F ^^^ x)

open Sys2Proof.Claims

/-! ### Encoding -/

/-- 30_encoding R71 to R74: no bit of an encoding is dropped, and every encoding is a legal word of the opcode map. -/
def Obligations.DecodeOfEncode : Prop :=
  ∀ i : Instr, decode (encode i) = .ok i ∧ Sys2Proof.Word.wellFormed (encode i) = true

/-- 30_encoding R74, R75: a word that decodes is the one encoding of its command. -/
def Obligations.EncodeOfDecode : Prop :=
  ∀ (w : Word) (i : Instr), decode w = .ok i → encode i = w

/-- 30_encoding R75: which words are illegal, what presenting one does, and that every word is exactly one command or
illegal (selected by exactly one row of the opcode map, or by none). -/
def Obligations.IllegalWordsFault : Prop :=
  ∀ w : Word,
    (IsIllegal w ↔
      opcField w = 0 ∨ 0xB ≤ (opcField w).toNat ∨
        ∃ r ∈ opcodeMap, w &&& 0xF000 = r.pattern &&& 0xF000 ∧ w &&& r.mask &&& 0x0FFF ≠ 0) ∧
    (∀ s : State, s.fault = .noFault → IsIllegal w →
      presentWord w s = .next { s with fault := .illegalCommand }) ∧
    (IsIllegal w → (opcodeMap.filter (·.selects w)).length = 0) ∧
    (¬ IsIllegal w → (opcodeMap.filter (·.selects w)).length = 1)

/-- 30_encoding R76: the legal words are 4 FN words, five blocks of 256 FD words and 4 FQ words, 1288 in all, and OPC
alone gives the mnemonic. -/
def Obligations.LegalWordsAre1288 : Prop :=
  (∀ w : Word, ¬ IsIllegal w ↔
    w ∈ [0x1000#16, 0x8000, 0x9000, 0xA000] ∨
    (∃ n ∈ [0x20, 0x30, 0x40, 0x50, 0x70], w.toNat / 256 = n) ∨
    w ∈ [0x6000#16, 0x6100, 0x6200, 0x6300]) ∧
  (∃ l : List Word, l.Nodup ∧ l.length = 1288 ∧ ∀ w, w ∈ l ↔ ¬ IsIllegal w) ∧
  (∀ w w' : Word, ∀ i i' : Instr, decode w = .ok i → decode w' = .ok i' → opcField w = opcField w' →
    i.mnemonic = i'.mnemonic)

/-- 30_encoding R71, R74 and the words of 95 V-ENC-1, V-ENC-2, written out from the field layout. -/
def Obligations.SampleWordsDecode : Prop :=
  decode 0x1000#16 = .ok .tbuild ∧ decode 0x20A7#16 = .ok (.poppar 0xA7) ∧
  decode 0x3013#16 = .ok (.cpmgen 0x13) ∧ decode 0x407F#16 = .ok (.ptlkp 0x7F) ∧
  decode 0x50A7#16 = .ok (.cpmlkp 0xA7) ∧ decode 0x6200#16 = .ok (.qinit 2) ∧
  decode 0x7013#16 = .ok (.qbyte 0x13) ∧ decode 0x8000#16 = .ok .qemit ∧
  decode 0x9000#16 = .ok .eclr ∧ decode 0xA000#16 = .ok .epage ∧
  ∀ w ∈ [0x0000#16, 0xB000, 0xF123, 0x2400, 0x2C00, 0x1001, 0x9800, 0x8100, 0xA0FF, 0x6001, 0x6380, 0x6400],
    IsIllegal w

/-- 20_memory R55: a command word moved as two bytes goes low byte first. -/
def Obligations.CommandWordIsLittleEndian : Prop :=
  ∀ (w : Word) (rest : List Byte),
    bytesOfWord w = [dField w, w.extractLsb' 8 8] ∧
    decodeBytes (bytesOfWord w ++ rest) = some (decode w, rest)

/-! ### The step and the host's actions -/

/-- 20_memory R51, R60; 10_state R20: when the host's oldest action presents a word that decodes to `i`, the step is
`exec i` once that action is taken off the queue; and a word placed by `withFetchWord` is run by the very next step.
The queue is the model's own (log 1). -/
def Obligations.StepRunsPresentedCommand : Prop :=
  (∀ (s : State) (w : Word) (i : Instr) (rest : List HostAction),
    s.pending = .command w :: rest → decode w = .ok i → step s = exec i { s with pending := rest }) ∧
  (∀ (s : State) (i : Instr), step (s.withFetchWord 16 (encode i).toNat) = exec i s)

/-- 20_memory R60, 60_exceptions R172, R178: every action of the host completes in one step, which takes exactly that
action off the queue; with no action the block waits (the model's queue, log 1). Nothing stops the machine. -/
def Obligations.EveryActionCompletesInOneStep : Prop :=
  (∀ s : State, s.pending = [] → step s = .next s) ∧
  (∀ (s : State) (x : HostAction) (rest : List HostAction), s.pending = x :: rest →
    ∃ t, step s = .next t ∧ t.pending = rest)

/-- 60_exceptions R176: a host read of a location that holds no value returns no value, and sets FAULT only when no
fault is held. -/
def Obligations.ReadsOfUnwrittenFault : Prop :=
  ∀ s : State,
    let t := { s with
      answers := s.answers ++ [.noValue]
      fault := if s.fault = .noFault then .uninitialisedRead else s.fault }
    (s.resw = false → resultRead s = .next t) ∧
    (∀ a, s.pageBuf.read a.toNat = none → pageRead a s = .next t) ∧
    (∀ a, s.eccBuf.read a.toNat = none → eccRead a s = .next t)

/-- 20_memory R51, R57: a read of a location that holds a value returns it and changes nothing else; SR returns STATUS
and never faults. Both hold in the faulted state too (60_exceptions R173). -/
def Obligations.ReadsReturnTheValueHeld : Prop :=
  ∀ s : State,
    (s.resw = true → resultRead s = .next { s with answers := s.answers ++ [.byte s.res] }) ∧
    (∀ a v, s.pageBuf.read a.toNat = some v →
      pageRead a s = .next { s with answers := s.answers ++ [.byte v] }) ∧
    (∀ a v, s.eccBuf.read a.toNat = some v →
      eccRead a s = .next { s with answers := s.answers ++ [.byte v] }) ∧
    statusRead s = .next { s with answers := s.answers ++ [.word (status s)] }

/-- 20_memory R51, 10_state R36, 70_reset R205: a page write stores its byte, sets its written bit, leaves every other
byte of PAGEBUF and all else alone, ECCBUF included. -/
def Obligations.PageWriteStoresOneByte : Prop :=
  ∀ (s : State) (a : BitVec 9) (v : Byte), s.fault = .noFault →
    ∃ t, pageWrite a v s = .next t ∧
      t = { s with pageBuf := t.pageBuf } ∧
      t.pageBuf.read a.toNat = some v ∧
      ∀ b, b ≠ a.toNat → t.pageBuf.read b = s.pageBuf.read b

/-- 10_state R31: the fields of STATUS, and their legal values (J only while the counter is sound). -/
def Obligations.StatusWordFields : Prop :=
  ∀ s : State,
    (status s).getLsbD 0 = s.tb ∧ (status s).getLsbD 1 = s.qopen ∧
    (status s).extractLsb' 2 2 = s.q ∧ (status s).extractLsb' 4 4 = faultBits s.fault ∧
    (status s).extractLsb' 8 8 = s.j ∧
    ((status s).extractLsb' 4 4).toNat ≤ 8 ∧
    (CounterSound s → ((status s).extractLsb' 8 8).toNat ≤ 128)

/-- 70_reset R200, 10_state R39: what RESET leaves from every state. That the configuration, the host's queue and
answers and the count of draws stay is the model's choice (log 14). -/
def Obligations.ResetRestoresTheBlock : Prop :=
  ∀ s : State, ∃ t, hostReset s = .next t ∧
    t.resw = false ∧ t.j = 0 ∧ t.q = 0 ∧ t.qopen = false ∧ t.tb = false ∧ t.fault = .noFault ∧
    (∀ a, t.pageBuf.read a = none) ∧ (∀ a, t.eccBuf.read a = none) ∧ status t = 0x0000 ∧
    t.cfg = s.cfg ∧ t.pending = s.pending ∧ t.answers = s.answers ∧ t.draws = s.draws

/-- 10_state R39, 70_reset R200, R201: the state after reset, in the values the spec gives. -/
def Obligations.ResetStateValues : Prop :=
  State.reset.resw = false ∧ State.reset.j = 0 ∧ State.reset.q = 0 ∧ State.reset.qopen = false ∧
  State.reset.tb = false ∧ State.reset.fault = .noFault ∧ status State.reset = 0x0000 ∧
  (∀ a, State.reset.pageBuf.read a = none) ∧ (∀ a, State.reset.eccBuf.read a = none) ∧
  step State.reset = .next State.reset

/-! ### Faults -/

/-- 60_exceptions R173: the faulted state. -/
def Obligations.FaultedStateDiscards : Prop :=
  ∀ s : State, s.fault ≠ .noFault →
    (∀ w, presentWord w s = .next s) ∧
    (∀ a v, pageWrite a v s = .next s) ∧
    (s.resw = true → resultRead s = .next { s with answers := s.answers ++ [.byte s.res] }) ∧
    (∀ a v, s.pageBuf.read a.toNat = some v →
      pageRead a s = .next { s with answers := s.answers ++ [.byte v] }) ∧
    (∀ a v, s.eccBuf.read a.toNat = some v →
      eccRead a s = .next { s with answers := s.answers ++ [.byte v] }) ∧
    (s.resw = false → resultRead s = .next { s with answers := s.answers ++ [.noValue] }) ∧
    (∀ a, s.pageBuf.read a.toNat = none →
      pageRead a s = .next { s with answers := s.answers ++ [.noValue] }) ∧
    (∀ a, s.eccBuf.read a.toNat = none →
      eccRead a s = .next { s with answers := s.answers ++ [.noValue] }) ∧
    statusRead s = .next { s with answers := s.answers ++ [.word (status s)] } ∧
    (status s).extractLsb' 4 4 = faultBits s.fault ∧
    (∀ x t, x ≠ .reset → act x s = .next t → ¬ Running t) ∧
    (∀ t, act .reset s = .next t → Running t)

/-- 60_exceptions R173, R174, R177: from a faulted state, through any number of steps in which the host does not reset,
the whole block stays as it is: only the host's queue and answers move. -/
def Obligations.FaultedBlockFrozenUntilReset : Prop :=
  ∀ (k : Nat) (s t : State), s.fault ≠ .noFault → (∀ x ∈ s.pending.take k, x ≠ .reset) →
    Host.Core.run Sys2Proof.core k s = .next t →
      t = { s with pending := t.pending, answers := t.answers }

/-- 60_exceptions R172: fault entry. A word that raises a fault, whatever it is, changes nothing but FAULT, which was 0
and takes the code of the first check that fails; the block is then in the faulted state. -/
def Obligations.FaultEntryIsPrecise : Prop :=
  ∀ (w : Word) (s t : State), s.fault = .noFault → presentWord w s = .next t → t.fault ≠ .noFault →
    t = { s with fault := faultAfter w s } ∧ ¬ Running t

/-- 60_exceptions R175: which fault is reported when several apply. -/
def Obligations.FaultPriority : Prop :=
  ∀ (w : Word) (s : State), ∃ t, presentWord w s = .next t ∧ t.fault = faultAfter w s

/-- 60_exceptions R170: no data value causes a fault, of an FD command or of a page. -/
def Obligations.DataValuesNeverFault : Prop :=
  (∀ mk ∈ [Instr.poppar, Instr.cpmgen, Instr.ptlkp, Instr.cpmlkp, Instr.qbyte],
    ∀ (d d' : Byte) (s t t' : State), exec (mk d) s = .next t → exec (mk d') s = .next t' →
      t.fault = t'.fault) ∧
  (∀ (s t t' : State) (page : Memory),
    (∀ a < 512, (page.read a).isSome = (s.pageBuf.read a).isSome) →
    exec .epage s = .next t → exec .epage { s with pageBuf := page } = .next t' → t.fault = t'.fault)

/-- 70_reset R200, 10_state R29, R30: RESET is the only action that clears TB or FAULT. -/
def Obligations.OnlyResetClearsTbAndFault : Prop :=
  ∀ (x : HostAction) (s t : State), x ≠ .reset → act x s = .next t →
    (s.tb = true → t.tb = true) ∧ (s.fault ≠ .noFault → t.fault = s.fault)

/-! ### The parity unit, the generator and the tables -/

/-- 40_tables R101: parity is the XOR of all eight bits, 1 exactly for an odd number of 1 bits, and linear. -/
def Obligations.ParityIsXorOfAllBits : Prop :=
  (∀ b : Byte, (parity b).getLsbD 0 =
    (b.getLsbD 0 ^^ b.getLsbD 1 ^^ b.getLsbD 2 ^^ b.getLsbD 3 ^^ b.getLsbD 4 ^^ b.getLsbD 5 ^^ b.getLsbD 6 ^^
      b.getLsbD 7)) ∧
  (∀ b : Byte, parity b = 1 ↔ ((List.range 8).filter b.getLsbD).length % 2 = 1) ∧
  (∀ a b : Byte, parity (a ^^^ b) = parity a ^^^ parity b)

/-- 40_tables R103: lane `i` of the mask is the parity of the bits mask `i` selects, each lane by its formula. -/
def Obligations.MaskLaneFormulas : Prop :=
  (∀ b : Byte, ∀ i m, columnMasks[i]? = some m → (columnParityMask b).getLsbD i = (parity (b &&& m)).getLsbD 0) ∧
  columnMasks = [0x55, 0x33, 0x0F, 0x00, 0xAA, 0xCC, 0xF0] ∧
  ∀ b : Byte,
    let c := columnParityMask b
    c.getLsbD 0 = (b.getLsbD 0 ^^ b.getLsbD 2 ^^ b.getLsbD 4 ^^ b.getLsbD 6) ∧
    c.getLsbD 1 = (b.getLsbD 0 ^^ b.getLsbD 1 ^^ b.getLsbD 4 ^^ b.getLsbD 5) ∧
    c.getLsbD 2 = (b.getLsbD 0 ^^ b.getLsbD 1 ^^ b.getLsbD 2 ^^ b.getLsbD 3) ∧
    c.getLsbD 3 = false ∧
    c.getLsbD 4 = (b.getLsbD 1 ^^ b.getLsbD 3 ^^ b.getLsbD 5 ^^ b.getLsbD 7) ∧
    c.getLsbD 5 = (b.getLsbD 2 ^^ b.getLsbD 3 ^^ b.getLsbD 6 ^^ b.getLsbD 7) ∧
    c.getLsbD 6 = (b.getLsbD 4 ^^ b.getLsbD 5 ^^ b.getLsbD 6 ^^ b.getLsbD 7) ∧
    c.getLsbD 7 = false

/-- 40_tables R104: the properties of the mask. -/
def Obligations.MaskProperties : Prop :=
  (∀ b : Byte, (columnParityMask b).getLsbD 3 = false ∧ (columnParityMask b).getLsbD 7 = false) ∧
  (∀ a b : Byte, columnParityMask (a ^^^ b) = columnParityMask a ^^^ columnParityMask b) ∧
  (∀ b : Byte, ((columnParityMask b).getLsbD 0 ^^ (columnParityMask b).getLsbD 4) = (parity b).getLsbD 0) ∧
  (∀ k < 8, columnParityMask (BitVec.ofNat 8 (1 <<< k)) = BitVec.ofNat 8 ((k <<< 4) ||| (7 ^^^ k)))

/-- 40_tables R102: POPPAR, from every unfaulted state, TB = 0 included. -/
def Obligations.PopparResult : Prop :=
  (∀ d : Byte, encode (.poppar d) = 0x2000 ||| d.setWidth 16) ∧
  (∀ (d : Byte) (s : State), s.fault = .noFault →
    exec (.poppar d) s = .next { s with
      res := if ((List.range 8).filter d.getLsbD).length % 2 = 1 then 0x01 else 0x00
      resw := true })

/-- 40_tables R105: CPMGEN, from every unfaulted state, TB = 0 included. -/
def Obligations.CpmgenResult : Prop :=
  (∀ d : Byte, encode (.cpmgen d) = 0x3000 ||| d.setWidth 16) ∧
  (∀ (d : Byte) (s : State), s.fault = .noFault →
    ∃ t, exec (.cpmgen d) s = .next t ∧ t = { s with res := t.res, resw := true } ∧
      (∀ i m, [0x55#8, 0x33, 0x0F, 0x00, 0xAA, 0xCC, 0xF0][i]? = some m →
        t.res.getLsbD i = (parity (d &&& m)).getLsbD 0) ∧
      t.res.getLsbD 3 = false ∧ t.res.getLsbD 7 = false ∧
      (t.res = 0x00 ↔
        d ∈ [0x00#8, 0x0F, 0x33, 0x3C, 0x55, 0x5A, 0x66, 0x69, 0x96, 0x99, 0xA5, 0xAA, 0xC3, 0xCC, 0xF0, 0xFF]))

/-- 40_tables R106: TBUILD, from every unfaulted state, an open quarter included. -/
def Obligations.TbuildResult : Prop :=
  encode .tbuild = 0x1000 ∧
  ∀ s : State, s.fault = .noFault →
    ∃ t, exec .tbuild s = .next t ∧ t = { s with pt := t.pt, cpmt := t.cpmt, tb := true } ∧
      (∀ b : Byte, ptAt t.pt b = parity b) ∧
      (∀ b : Byte, (∀ i m, columnMasks[i]? = some m →
        (cpmtAt t.cpmt b).getLsbD i = (ptAt t.pt (b &&& m)).getLsbD 0) ∧ (cpmtAt t.cpmt b).getLsbD 7 = false) ∧
      (status t).getLsbD 0 = true ∧
      exec (.ptlkp 0x07) t = .next { t with res := 0x01, resw := true } ∧
      exec .tbuild t = .next t

/-- The Parity Table as 40_tables R108 prints it, one bit an entry. -/
def Sys2Proof.Claims.printedPt : List Nat :=
  let a := [0, 1, 1, 0, 1, 0, 0, 1, 1, 0, 0, 1, 0, 1, 1, 0]
  let b := [1, 0, 0, 1, 0, 1, 1, 0, 0, 1, 1, 0, 1, 0, 0, 1]
  a ++ b ++ b ++ a ++ b ++ a ++ a ++ b ++ b ++ a ++ a ++ b ++ a ++ b ++ b ++ a

/-- The Column Parity Mask Table as 40_tables R109 prints it. -/
def Sys2Proof.Claims.printedCpmt : List Nat :=
  [0x00, 0x07, 0x16, 0x11, 0x25, 0x22, 0x33, 0x34, 0x34, 0x33, 0x22, 0x25, 0x11, 0x16, 0x07, 0x00] ++
  [0x43, 0x44, 0x55, 0x52, 0x66, 0x61, 0x70, 0x77, 0x77, 0x70, 0x61, 0x66, 0x52, 0x55, 0x44, 0x43] ++
  [0x52, 0x55, 0x44, 0x43, 0x77, 0x70, 0x61, 0x66, 0x66, 0x61, 0x70, 0x77, 0x43, 0x44, 0x55, 0x52] ++
  [0x11, 0x16, 0x07, 0x00, 0x34, 0x33, 0x22, 0x25, 0x25, 0x22, 0x33, 0x34, 0x00, 0x07, 0x16, 0x11] ++
  [0x61, 0x66, 0x77, 0x70, 0x44, 0x43, 0x52, 0x55, 0x55, 0x52, 0x43, 0x44, 0x70, 0x77, 0x66, 0x61] ++
  [0x22, 0x25, 0x34, 0x33, 0x07, 0x00, 0x11, 0x16, 0x16, 0x11, 0x00, 0x07, 0x33, 0x34, 0x25, 0x22] ++
  [0x33, 0x34, 0x25, 0x22, 0x16, 0x11, 0x00, 0x07, 0x07, 0x00, 0x11, 0x16, 0x22, 0x25, 0x34, 0x33] ++
  [0x70, 0x77, 0x66, 0x61, 0x55, 0x52, 0x43, 0x44, 0x44, 0x43, 0x52, 0x55, 0x61, 0x66, 0x77, 0x70] ++
  [0x70, 0x77, 0x66, 0x61, 0x55, 0x52, 0x43, 0x44, 0x44, 0x43, 0x52, 0x55, 0x61, 0x66, 0x77, 0x70] ++
  [0x33, 0x34, 0x25, 0x22, 0x16, 0x11, 0x00, 0x07, 0x07, 0x00, 0x11, 0x16, 0x22, 0x25, 0x34, 0x33] ++
  [0x22, 0x25, 0x34, 0x33, 0x07, 0x00, 0x11, 0x16, 0x16, 0x11, 0x00, 0x07, 0x33, 0x34, 0x25, 0x22] ++
  [0x61, 0x66, 0x77, 0x70, 0x44, 0x43, 0x52, 0x55, 0x55, 0x52, 0x43, 0x44, 0x70, 0x77, 0x66, 0x61] ++
  [0x11, 0x16, 0x07, 0x00, 0x34, 0x33, 0x22, 0x25, 0x25, 0x22, 0x33, 0x34, 0x00, 0x07, 0x16, 0x11] ++
  [0x52, 0x55, 0x44, 0x43, 0x77, 0x70, 0x61, 0x66, 0x66, 0x61, 0x70, 0x77, 0x43, 0x44, 0x55, 0x52] ++
  [0x43, 0x44, 0x55, 0x52, 0x66, 0x61, 0x70, 0x77, 0x77, 0x70, 0x61, 0x66, 0x52, 0x55, 0x44, 0x43] ++
  [0x00, 0x07, 0x16, 0x11, 0x25, 0x22, 0x33, 0x34, 0x34, 0x33, 0x22, 0x25, 0x11, 0x16, 0x07, 0x00]

/-- 40_tables R107, R108, R109: after any number of TBUILDs, at least one, PT and CPMT are the printed tables, and the
state is the one the first TBUILD left. -/
def Obligations.TbuildLeavesThePrintedTables : Prop :=
  ∀ (n : Nat) (s : State), s.fault = .noFault →
    ∃ t, execAll (List.replicate (n + 1) .tbuild) s = .next t ∧ exec .tbuild s = .next t ∧
      t.pt.toList.map BitVec.toNat = printedPt ∧ t.cpmt.toList.map BitVec.toNat = printedCpmt

/-- 40_tables R110: PTLKP. -/
def Obligations.PtlkpResult : Prop :=
  (∀ d : Byte, encode (.ptlkp d) = 0x4000 ||| d.setWidth 16) ∧
  ∀ (d : Byte) (s : State), s.fault = .noFault →
    (s.tb = false → exec (.ptlkp d) s = .next { s with fault := .tablesNotBuilt }) ∧
    (s.tb = true → exec (.ptlkp d) s = .next { s with res := (ptAt s.pt d).setWidth 8, resw := true }) ∧
    (s.tb = true → TablesSound s → exec (.ptlkp d) s = exec (.poppar d) s) ∧
    (∀ t, exec (.ptlkp d) s = .next t → s.tb = true → t.res = 0x00 ∨ t.res = 0x01)

/-- 40_tables R111: CPMLKP. -/
def Obligations.CpmlkpResult : Prop :=
  (∀ d : Byte, encode (.cpmlkp d) = 0x5000 ||| d.setWidth 16) ∧
  ∀ (d : Byte) (s : State), s.fault = .noFault →
    (s.tb = false → exec (.cpmlkp d) s = .next { s with fault := .tablesNotBuilt }) ∧
    (s.tb = true → exec (.cpmlkp d) s = .next { s with res := cpmtAt s.cpmt d, resw := true }) ∧
    (s.tb = true → TablesSound s → exec (.cpmlkp d) s = exec (.cpmgen d) s) ∧
    (∀ t, exec (.cpmlkp 0xFF) s = .next t → s.tb = true → TablesSound s → t.res = 0x00)

/-- 40_tables R112: the laws that hold once TB = 1, in every state whose tables are sound (an invariant of its own). -/
def Obligations.LookupLawsOnceBuilt : Prop :=
  ∀ s : State, TablesSound s → s.tb = true →
    (∀ b, ptAt s.pt b = parity b ∧ cpmtAt s.cpmt b = columnParityMask b) ∧
    (∀ d, exec (.ptlkp d) s = exec (.poppar d) s ∧ exec (.cpmlkp d) s = exec (.cpmgen d) s) ∧
    (∀ b, cpmtAt s.cpmt b = 0x00 ↔
      b ∈ [0x00#8, 0x0F, 0x33, 0x3C, 0x55, 0x5A, 0x66, 0x69, 0x96, 0x99, 0xA5, 0xAA, 0xC3, 0xCC, 0xF0, 0xFF]) ∧
    (∀ b, cpmtAt s.cpmt b = 0x00 → ptAt s.pt b = 0)

/-- 40_tables R113: nothing but TBUILD (and RESET, after which the tables hold no value) changes PT or CPMT: no other
command, no host action, no fault. -/
def Obligations.TablesWrittenByTbuildOnly : Prop :=
  ∀ (x : HostAction) (s t : State), x ≠ .command (encode .tbuild) → x ≠ .reset → act x s = .next t →
    t.pt = s.pt ∧ t.cpmt = s.cpmt

/-! ### The ECC encoder -/

/-- 41_ecc R131: QINIT. -/
def Obligations.QinitResult : Prop :=
  (∀ q : BitVec 2, encode (.qinit q) = 0x6000 ||| (q.setWidth 16 <<< 8)) ∧
  ∀ (q : BitVec 2) (s : State), s.fault = .noFault →
    (s.qopen = true → exec (.qinit q) s = .next { s with fault := .quarterBusy }) ∧
    (s.qopen = false → ∃ t, exec (.qinit q) s = .next t ∧
      t = { s with q := q, cp := 0x77, lp0 := 0x7F, lp1 := 0x7F, j := 0, qopen := true } ∧
      status t = 0x0002 ||| (q.setWidth 16 <<< 2) ||| (if s.tb then 0x0001 else 0x0000))

/-- 41_ecc R132 to R135: QBYTE, its faults in their order and its effect under every configuration. -/
def Obligations.QbyteResult : Prop :=
  (∀ d : Byte, encode (.qbyte d) = 0x7000 ||| d.setWidth 16) ∧
  ∀ (d : Byte) (s : State), s.fault = .noFault →
    (s.tb = false → exec (.qbyte d) s = .next { s with fault := .tablesNotBuilt }) ∧
    (s.tb = true → s.qopen = false → exec (.qbyte d) s = .next { s with fault := .quarterNotOpen }) ∧
    (s.tb = true → s.qopen = true → s.j = 128 →
      exec (.qbyte d) s = .next { s with fault := .quarterOverflow }) ∧
    (s.tb = true → s.qopen = true → s.j ≠ 128 →
      let x := if s.cfg.lpIndex = .byteOffset then s.j else BitVec.ofNat 8 s.q.toNat
      exec (.qbyte d) s = .next { s with
        cp :=
          if s.cfg.cpMode = .cumulative then s.cp ^^^ cpmtAt s.cpmt d
          else if s.cfg.cpMode = .shadowLast then 0x77 ^^^ cpmtAt s.cpmt d
          else s.cp
        lp0 := if ptAt s.pt d = 1 then s.lp0 ^^^ (0xFF ^^^ x) else s.lp0
        lp1 := if ptAt s.pt d = 1 then s.lp1 ^^^ x else s.lp1
        j := BitVec.ofNat 8 (s.j.toNat + 1) })

/-- 41_ecc R132, corner cases: an even byte leaves the line accumulators, a byte with an empty mask leaves CP under
CUMULATIVE, and there 0x00 and 0xFF change nothing but J. -/
def Obligations.QbyteCornerBytes : Prop :=
  ∀ (d : Byte) (s t : State), TablesSound s → exec (.qbyte d) s = .next t → s.tb = true →
    (ptAt s.pt d = 0 → t.lp0 = s.lp0 ∧ t.lp1 = s.lp1) ∧
    (cpmtAt s.cpmt d = 0 → s.cfg.cpMode = .cumulative → t.cp = s.cp) ∧
    (d = 0x00 ∨ d = 0xFF → s.cfg.cpMode = .cumulative → t.fault = .noFault → t = { s with j := s.j + 1 })

/-- 41_ecc R136: QEMIT. Under UNCONSTRAINED the column byte is the next free draw, whatever its value (log 9). -/
def Obligations.QemitResult : Prop :=
  encode .qemit = 0x8000 ∧
  ∀ s : State, s.fault = .noFault →
    (s.qopen = false → exec .qemit s = .next { s with fault := .quarterNotOpen }) ∧
    (s.qopen = true → s.j < 128 → exec .qemit s = .next { s with fault := .quarterIncomplete }) ∧
    (s.qopen = true → 128 ≤ s.j → ∃ t, exec .qemit s = .next t ∧
      t = { s with eccBuf := t.eccBuf, draws := t.draws, qopen := false } ∧
      t.eccBuf.read (3 * s.q.toNat) =
        some (if s.cfg.cpMode = .unconstrained then Config.freeByte s.draws else s.cp) ∧
      t.draws = (if s.cfg.cpMode = .unconstrained then s.draws + 1 else s.draws) ∧
      t.eccBuf.read (3 * s.q.toNat + 1) = some (s.lp0 &&& 0x7F) ∧
      t.eccBuf.read (3 * s.q.toNat + 2) = some s.lp1 ∧
      (∀ a, a < 3 * s.q.toNat ∨ 3 * s.q.toNat + 2 < a → t.eccBuf.read a = s.eccBuf.read a))

/-- 41_ecc R142: ECLR, from every unfaulted state: all sixteen bytes are 0x00 and written, nothing else changes. -/
def Obligations.EclrResult : Prop :=
  encode .eclr = 0x9000 ∧
  ∀ s : State, s.fault = .noFault →
    ∃ t, exec .eclr s = .next t ∧ t = { s with eccBuf := t.eccBuf } ∧
      (∀ a < 16, t.eccBuf.read a = some 0x00) ∧ (∀ a, 16 ≤ a → t.eccBuf.read a = s.eccBuf.read a)

/-- 41_ecc R143 with the closed form of R137: EPAGE from every state in which it executes normally. -/
def Obligations.EpageResult : Prop :=
  encode .epage = 0xA000 ∧
  ∀ s : State, EpageReady s →
    ∃ t, exec .epage s = .next t ∧
      t = { s with
        eccBuf := t.eccBuf, cp := t.cp, lp0 := t.lp0, lp1 := t.lp1
        q := 3, j := 128, qopen := false
        draws := if s.cfg.cpMode = .unconstrained then s.draws + 4 else s.draws } ∧
      (∀ q < 4, HoldsGroup s q (quarterOf s q) t.eccBuf) ∧
      (∀ a, 12 ≤ a → t.eccBuf.read a = s.eccBuf.read a) ∧
      some (t.lp0 &&& 0x7F) = t.eccBuf.read 10 ∧ some t.lp1 = t.eccBuf.read 11 ∧
      (s.cfg.cpMode ≠ .unconstrained → some t.cp = t.eccBuf.read 9)

/-- 41_ecc R137: the group of one quarter in closed form, written by QINIT q, the 128 QBYTEs and QEMIT. -/
def Obligations.QuarterGroupClosedForm : Prop :=
  ∀ (s : State) (q : BitVec 2) (bytes : List Byte), QuarterReady s → bytes.length = 128 →
    let o := oddOffsets s.pt bytes
    let x := lineXor s.cfg.lpIndex q.toNat s.pt bytes
    ∃ t e1 e2, execAll (quarterCommands q bytes) s = .next t ∧
      HoldsGroup s q.toNat bytes t.eccBuf ∧
      t.eccBuf.read (3 * q.toNat + 1) = some e1 ∧ t.eccBuf.read (3 * q.toNat + 2) = some e2 ∧
      (o.length % 2 = 0 → e1 ^^^ e2 = 0x00) ∧ (o.length % 2 = 1 → e1 ^^^ e2 = 0x7F) ∧
      (s.cfg.lpIndex = .quarterIndex → x = if o.length % 2 = 1 then BitVec.ofNat 8 q.toNat else 0) ∧
      (TablesBuilt s → (o.length % 2 = 1 ↔ parity (bytes.foldr (· ^^^ ·) 0) = 1))

/-- 41_ecc R144: EPAGE leaves the very state of the 4 x 130 commands, the draws of UNCONSTRAINED one to one. -/
def Obligations.EpageEqualsItsCommandSequence : Prop :=
  ∀ s : State, EpageReady s →
    execAll ([0, 1, 2, 3].flatMap fun q => quarterCommands (BitVec.ofNat 2 q) (quarterOf s q)) s = exec .epage s

/-- 41_ecc R138: the golden values. A quarter whose bytes all have an empty mask emits the seeds, and an all-zero page
after ECLR gives the golden block, under every mode but UNCONSTRAINED and under both line indices. -/
def Obligations.GoldenGroupAndBlock : Prop :=
  (∀ (s : State) (q : BitVec 2) (bytes : List Byte), QuarterReady s → TablesBuilt s → bytes.length = 128 →
    s.cfg.cpMode ≠ .unconstrained → (∀ b ∈ bytes, cpmtAt s.cpmt b = 0x00) →
    ∃ t, execAll (quarterCommands q bytes) s = .next t ∧
      t.eccBuf.read (3 * q.toNat) = some 0x77 ∧ t.eccBuf.read (3 * q.toNat + 1) = some 0x7F ∧
      t.eccBuf.read (3 * q.toNat + 2) = some 0x7F) ∧
  (∀ s : State, EpageReady s → TablesBuilt s → s.cfg.cpMode ≠ .unconstrained →
    (∀ a < 512, s.pageBuf.read a = some 0x00) →
    ∃ t, execAll [.eclr, .epage] s = .next t ∧
      (List.range 16).map t.eccBuf.read =
        [some 0x77, some 0x7F, some 0x7F, some 0x77, some 0x7F, some 0x7F, some 0x77, some 0x7F, some 0x7F,
         some 0x77, some 0x7F, some 0x7F, some 0x00, some 0x00, some 0x00, some 0x00])

/-- 41_ecc R140, R141: the single-bit law, for each configuration as R140 states it: flip bit `k` of the byte at offset
`j` of quarter `q`, and only the group of `q` changes (R141), by the bit's mask and by the line index (R140). -/
def Obligations.SingleBitLaw : Prop :=
  ∀ (s : State) (q j k : Nat) (b : Byte), q < 4 → j < 128 → k < 8 → EpageReady s → TablesBuilt s →
    s.cfg.cpMode ≠ .unconstrained → s.pageBuf.read (128 * q + j) = some b →
    let bitMask := BitVec.ofNat 8 ((k <<< 4) ||| (7 ^^^ k))
    let x := lineIdx s.cfg.lpIndex q j
    let s' := { s with pageBuf := s.pageBuf.write (128 * q + j) (b ^^^ BitVec.ofNat 8 (1 <<< k)) }
    ∃ t t' e0 e1 e2, exec .epage s = .next t ∧ exec .epage s' = .next t' ∧
      t.eccBuf.read (3 * q) = some e0 ∧ t.eccBuf.read (3 * q + 1) = some e1 ∧
      t.eccBuf.read (3 * q + 2) = some e2 ∧
      (s.cfg.cpMode = .cumulative → t'.eccBuf.read (3 * q) = some (e0 ^^^ bitMask)) ∧
      (s.cfg.cpMode = .shadowSeed → t'.eccBuf.read (3 * q) = some e0) ∧
      (s.cfg.cpMode = .shadowLast →
        t'.eccBuf.read (3 * q) = some (if j = 127 then e0 ^^^ bitMask else e0)) ∧
      t'.eccBuf.read (3 * q + 1) = some (e1 ^^^ (0x7F ^^^ x)) ∧
      t'.eccBuf.read (3 * q + 2) = some (e2 ^^^ x) ∧
      (∀ a, a < 3 * q ∨ 3 * q + 2 < a → t'.eccBuf.read a = t.eccBuf.read a) ∧
      ((∀ c ∈ quarterOf s q, c = 0x00) → s.cfg = Config.reference →
        t'.eccBuf.read (3 * q) = some (0x77 ^^^ bitMask) ∧
        t'.eccBuf.read (3 * q + 1) = some (BitVec.ofNat 8 j) ∧
        t'.eccBuf.read (3 * q + 2) = some (0x7F ^^^ BitVec.ofNat 8 j))

/-- 41_ecc R141, R146, R147: the group of a quarter depends on that quarter's 128 bytes and the configuration alone:
not on the other quarters, not on anything an earlier page left, the open value of UNCONSTRAINED excepted. -/
def Obligations.GroupDependsOnItsQuarterOnly : Prop :=
  ∀ (s s' : State) (q : Nat), q < 4 → EpageReady s → EpageReady s' → TablesBuilt s → TablesBuilt s' →
    s.cfg = s'.cfg → quarterOf s q = quarterOf s' q →
    ∃ t t', exec .epage s = .next t ∧ exec .epage s' = .next t' ∧
      (s.cfg.cpMode ≠ .unconstrained → t.eccBuf.read (3 * q) = t'.eccBuf.read (3 * q)) ∧
      t.eccBuf.read (3 * q + 1) = t'.eccBuf.read (3 * q + 1) ∧
      t.eccBuf.read (3 * q + 2) = t'.eccBuf.read (3 * q + 2)

/-- 41_ecc R145: no action but ECLR and RESET changes ECCBUF bytes 12 to 15. -/
def Obligations.EccTailWrittenByEclrOnly : Prop :=
  ∀ (x : HostAction) (s t : State), x ≠ .command (encode .eclr) → x ≠ .reset → act x s = .next t →
    ∀ a, 12 ≤ a → t.eccBuf.read a = s.eccBuf.read a

/-- 70_reset R207: a repeated EPAGE rewrites the same bytes and leaves all else, a repeated TBUILD changes nothing. -/
def Obligations.RepeatedEpageAndTbuildAreSafe : Prop :=
  (∀ s t : State, EpageReady s → BuffersCanonical s → exec .epage s = .next t →
    (s.cfg.cpMode ≠ .unconstrained → exec .epage t = .next t) ∧
    ∃ u, exec .epage t = .next u ∧ (∀ a, 12 ≤ a → u.eccBuf.read a = s.eccBuf.read a)) ∧
  (∀ s t : State, s.fault = .noFault → exec .tbuild s = .next t → exec .tbuild t = .next t)

/-- 70_reset R206, 41_ecc R132, R136: exactly 128 QBYTEs make a quarter; fewer make QEMIT fault, one more faults. -/
def Obligations.QuarterTakesExactly128Bytes : Prop :=
  ∀ (s : State) (q : BitVec 2) (bytes : List Byte), QuarterReady s → bytes.length ≤ 128 →
    ∃ t, execAll (.qinit q :: bytes.map .qbyte) s = .next t ∧ Running t ∧ t.qopen = true ∧ t.q = q ∧
      t.j.toNat = bytes.length ∧
      (bytes.length < 128 → exec .qemit t = .next { t with fault := .quarterIncomplete }) ∧
      (bytes.length = 128 →
        (∀ d, exec (.qbyte d) t = .next { t with fault := .quarterOverflow }) ∧ Completes (exec .qemit t))

/-! ### Frames -/

/-- Frame of the commands that write RES (10_state R22, 40_tables R102, R105, R110, R111): all registers but RES, RESW
and FAULT, both tables and every byte of both buffers stay, and a faulting one leaves RES and RESW too. -/
def Obligations.FrameOfResultCommands : Prop :=
  ∀ (d : Byte) (i : Instr) (s t : State),
    i ∈ [Instr.poppar d, .cpmgen d, .ptlkp d, .cpmlkp d] → exec i s = .next t →
    t = { s with res := t.res, resw := t.resw, fault := t.fault } ∧
    (t.fault ≠ s.fault → t.res = s.res ∧ t.resw = s.resw) ∧
    (∀ a, t.pageBuf.read a = s.pageBuf.read a) ∧ (∀ a, t.eccBuf.read a = s.eccBuf.read a)

/-- Frame of TBUILD, QINIT and QBYTE (40_tables R106, 41_ecc R131, R132): the tables and TB; the quarter's registers;
the accumulators and J. No byte of either buffer changes. -/
def Obligations.FrameOfTableAndQuarterCommands : Prop :=
  ∀ (s t : State),
    (exec .tbuild s = .next t → t = { s with pt := t.pt, cpmt := t.cpmt, tb := t.tb }) ∧
    (∀ q, exec (.qinit q) s = .next t → t = { s with
      q := t.q, cp := t.cp, lp0 := t.lp0, lp1 := t.lp1, j := t.j, qopen := t.qopen, fault := t.fault }) ∧
    (∀ d, exec (.qbyte d) s = .next t → t = { s with
      cp := t.cp, lp0 := t.lp0, lp1 := t.lp1, j := t.j, fault := t.fault }) ∧
    (∀ d q i, i ∈ [Instr.tbuild, .qinit q, .qbyte d] → exec i s = .next t →
      (∀ a, t.pageBuf.read a = s.pageBuf.read a) ∧ (∀ a, t.eccBuf.read a = s.eccBuf.read a))

/-- Frame of the commands that store to ECCBUF (20_memory R53, 41_ecc R136, R142, R143): QEMIT stores the three bytes
from `groupBase Q`, ECLR bytes 0 to 15, EPAGE bytes 0 to 11; PAGEBUF, RES and the tables stay. -/
def Obligations.FrameOfStoringCommands : Prop :=
  ∀ (s t : State),
    (exec .qemit s = .next t →
      t = { s with eccBuf := t.eccBuf, qopen := t.qopen, fault := t.fault, draws := t.draws } ∧
      ∀ a, ¬ (groupBase s.q ≤ a ∧ a < groupBase s.q + 3) → t.eccBuf.read a = s.eccBuf.read a) ∧
    (exec .eclr s = .next t →
      t = { s with eccBuf := t.eccBuf } ∧ ∀ a, 16 ≤ a → t.eccBuf.read a = s.eccBuf.read a) ∧
    (exec .epage s = .next t →
      t = { s with
        eccBuf := t.eccBuf, q := t.q, cp := t.cp, lp0 := t.lp0, lp1 := t.lp1, j := t.j
        fault := t.fault, draws := t.draws } ∧
      ∀ a, 12 ≤ a → t.eccBuf.read a = s.eccBuf.read a) ∧
    (∀ i ∈ [Instr.qemit, .eclr, .epage], exec i s = .next t → ∀ a, t.pageBuf.read a = s.pageBuf.read a)

/-- 70_reset R208: with a quarter open, EPAGE (TB = 1, which every QBYTE needs) and QINIT fault with QUARTER_BUSY, and
the six commands that may be interleaved leave CP, LP0, LP1, J, Q and QOPEN. -/
def Obligations.OpenQuarterIsProtected : Prop :=
  (∀ s : State, s.fault = .noFault → s.qopen = true →
    (∀ q, exec (.qinit q) s = .next { s with fault := .quarterBusy }) ∧
    (s.tb = true → exec .epage s = .next { s with fault := .quarterBusy })) ∧
  (∀ (d : Byte) (i : Instr) (s t : State),
    i ∈ [Instr.eclr, .tbuild, .poppar d, .cpmgen d, .ptlkp d, .cpmlkp d] → exec i s = .next t →
    t.cp = s.cp ∧ t.lp0 = s.lp0 ∧ t.lp1 = s.lp1 ∧ t.j = s.j ∧ t.q = s.q ∧ t.qopen = s.qopen)

/-- 10_state R36, 20_memory R51: PAGEBUF is written by the host alone: no command changes it, nor does any action but a
page write and RESET. -/
def Obligations.PageBufferWrittenByHostOnly : Prop :=
  ∀ (x : HostAction) (s t : State), (∀ a v, x ≠ .pageWrite a v) → x ≠ .reset → act x s = .next t →
    t.pageBuf = s.pageBuf

/-- 10_state R22: RES and RESW are written by POPPAR, CPMGEN, PTLKP and CPMLKP, cleared by RESET, and left alone by
every other action. -/
def Obligations.ResultRegisterWrittenByFourCommandsOnly : Prop :=
  ∀ (x : HostAction) (s t : State), x ≠ .reset →
    (∀ d, x ≠ .command (encode (.poppar d)) ∧ x ≠ .command (encode (.cpmgen d)) ∧
      x ≠ .command (encode (.ptlkp d)) ∧ x ≠ .command (encode (.cpmlkp d))) →
    act x s = .next t → t.res = s.res ∧ t.resw = s.resw

/-- 10_state R32, R41: CP_MODE and LP_INDEX are fixed for the whole run (where the model holds them is log 4). -/
def Obligations.ConfigurationIsFixed : Prop :=
  ∀ (k : Nat) (s t : State), Host.Core.run Sys2Proof.core k s = .next t → t.cfg = s.cfg

/-! ### Invariants -/

/-- Every invariant below holds after reset. LP0, LP1 and CP are zero there by the model's choice (log 5). -/
def Obligations.InvariantsHoldAtReset : Prop :=
  BuffersCanonical State.reset ∧ TablesSound State.reset ∧ CounterSound State.reset ∧
    AccumulatorsSound State.reset ∧ EccBufSound State.reset

/-- 20_memory R50: every step keeps both buffers canonical, no address outside them. -/
def Obligations.StepKeepsBuffersCanonical : Prop :=
  ∀ s t : State, BuffersCanonical s → step s = .next t → BuffersCanonical t

/-- 10_state R29, R35, 40_tables R107, R112: every step keeps the tables sound. -/
def Obligations.StepKeepsTablesSound : Prop :=
  ∀ s t : State, TablesSound s → step s = .next t → TablesSound t

/-- 10_state R21, R26: every step keeps J at most 128, at 0 or 128 while no quarter is open, at 0 while TB = 0. -/
def Obligations.StepKeepsCounterSound : Prop :=
  ∀ s t : State, CounterSound s → step s = .next t → CounterSound t

/-- 10_state R25, 41_ecc R139, R137: every step keeps the accumulators sound. In the step that does RESET this rests on
the model's choice of 0x00 for CP, LP0 and LP1 (log 5): 10_state R39 and 70_reset R200 leave them unspecified. -/
def Obligations.StepKeepsAccumulatorsSound : Prop :=
  ∀ s t : State, AccumulatorsSound s → CounterSound s → TablesSound s → step s = .next t → AccumulatorsSound t

/-- 41_ecc R139, R145, 93 U5: every step keeps the zero bits of the written groups and the zero tail. -/
def Obligations.StepKeepsEccBufSound : Prop :=
  ∀ s t : State, EccBufSound s → AccumulatorsSound s → TablesSound s → step s = .next t → EccBufSound t

/-! ### The host's card image -/

/-- 60_exceptions R187: the output image of a card of 16384 pages: its size, and where each record's page and ECC block
stand. -/
def Obligations.OutputImageLayout : Prop :=
  ∀ records : List (List Byte × List Byte), records.length = 16384 →
    (∀ r ∈ records, r.1.length = 512 ∧ r.2.length = 16) →
    (outputImage records).length = 8650752 ∧
    ∀ n < 16384, ∀ page ecc, records[n]? = some (page, ecc) →
      recordOffset n = 528 * n ∧
      ((outputImage records).drop (528 * n)).take 512 = page ∧
      ((outputImage records).drop (528 * n + 512)).take 16 = ecc ∧
      cardBlock n = (n / 16, n % 16) ∧ (cardBlock n).1 < 1024
end

