-- ==== Sys2Proof/Laws/Decode.lean ====
section
/-! SUPPORT. The fields of a word and the word of its fields (30_encoding R71). -/

namespace Sys2Proof

/-- A word is its four fields. -/
theorem fields_append (w : Word) : opcField w ++ rsvField w ++ qfField w ++ dField w = w := by
  apply BitVec.eq_of_getLsbD_eq
  intro i hi
  unfold opcField rsvField qfField dField
  simp only [BitVec.getLsbD_append, BitVec.getLsbD_extractLsb']
  interval_cases i <;> simp

/-- A word whose reserved field is zero is packed from its other fields. -/
theorem packWord_fields {w : Word} (h : rsvField w = 0) : packWord (opcField w) (qfField w) (dField w) = w := by
  have := fields_append w
  rwa [h] at this

@[simp] theorem opcField_packWord (o : BitVec 4) (q : BitVec 2) (d : Byte) : opcField (packWord o q d) = o := by
  apply BitVec.eq_of_getLsbD_eq
  intro i hi
  unfold opcField packWord
  simp only [BitVec.getLsbD_append, BitVec.getLsbD_extractLsb']
  interval_cases i <;> simp

@[simp] theorem rsvField_packWord (o : BitVec 4) (q : BitVec 2) (d : Byte) : rsvField (packWord o q d) = 0 := by
  apply BitVec.eq_of_getLsbD_eq
  intro i hi
  unfold rsvField packWord
  simp only [BitVec.getLsbD_append, BitVec.getLsbD_extractLsb']
  interval_cases i <;> simp

@[simp] theorem qfField_packWord (o : BitVec 4) (q : BitVec 2) (d : Byte) : qfField (packWord o q d) = q := by
  apply BitVec.eq_of_getLsbD_eq
  intro i hi
  unfold qfField packWord
  simp only [BitVec.getLsbD_append, BitVec.getLsbD_extractLsb']
  interval_cases i <;> simp

@[simp] theorem dField_packWord (o : BitVec 4) (q : BitVec 2) (d : Byte) : dField (packWord o q d) = d := by
  apply BitVec.eq_of_getLsbD_eq
  intro i hi
  unfold dField packWord
  simp only [BitVec.getLsbD_append, BitVec.getLsbD_extractLsb']
  interval_cases i <;> simp

end Sys2Proof
end

