-- ==== Sys2Proof/Laws/Memory.lean ====
section
/-! SUPPORT. The buffers: reading what was written, and that every memory operation keeps the canonical form. -/

namespace Sys2Proof.Machine

variable {m : Memory} {a b n size : Nat} {v : Byte}

@[simp] theorem Memory.read_nil (a : Nat) : Memory.read [] a = none := rfl

@[simp] theorem Memory.read_write_self (m : Memory) (a : Nat) (v : Byte) :
    (m.write a v).read a = some v := by
  induction m with
  | nil => simp [Memory.write, Memory.read]
  | cons c rest ih =>
    obtain ⟨b, u⟩ := c
    unfold Memory.write
    split_ifs with h₁ h₂
    · simp [Memory.read]
    · simp [Memory.read]
    · simp [Memory.read, h₂, ih]

theorem Memory.read_write_of_ne (h : b ≠ a) : (m.write a v).read b = m.read b := by
  induction m with
  | nil => simp [Memory.write, Memory.read, h]
  | cons c rest ih =>
    obtain ⟨d, u⟩ := c
    unfold Memory.write
    split_ifs with h₁ h₂
    · simp [Memory.read, h]
    · subst h₂; simp [Memory.read, h]
    · simp only [Memory.read]; split_ifs <;> simp [ih]

theorem Memory.read_write (m : Memory) (a b : Nat) (v : Byte) :
    (m.write a v).read b = if b = a then some v else m.read b := by
  split_ifs with h
  · rw [h, Memory.read_write_self]
  · exact Memory.read_write_of_ne h

theorem Memory.mem_write {c : Host.Cell} (h : c ∈ m.write a v) : c = (a, v) ∨ c ∈ m := by
  induction m with
  | nil => simpa [Memory.write] using h
  | cons d rest ih =>
    obtain ⟨b, u⟩ := d
    unfold Memory.write at h
    split_ifs at h with h₁ h₂
    · simpa using h
    · rcases List.mem_cons.mp h with h | h <;> simp [h]
    · rcases List.mem_cons.mp h with h | h
      · simp [h]
      · rcases ih h with h | h <;> simp [h]

theorem Memory.wf_nil (size : Nat) : Memory.wf size [] := ⟨List.Pairwise.nil, fun _ h => absurd h List.not_mem_nil⟩

/-- A write inside the buffer keeps the canonical form. -/
theorem Memory.wf_write (h : Memory.wf size m) (ha : a < size) : Memory.wf size (m.write a v) := by
  refine ⟨?_, fun c hc => ?_⟩
  · obtain ⟨hs, -⟩ := h
    induction m with
    | nil => simp [Memory.write]
    | cons d rest ih =>
      obtain ⟨b, u⟩ := d
      obtain ⟨hb, hr⟩ := List.pairwise_cons.mp hs
      unfold Memory.write
      split_ifs with h₁ h₂
      · refine List.pairwise_cons.mpr ⟨fun c hc => ?_, hs⟩
        rcases List.mem_cons.mp hc with rfl | hc
        · exact h₁
        · exact h₁.trans (hb c hc)
      · subst h₂; exact List.pairwise_cons.mpr ⟨hb, hr⟩
      · refine List.pairwise_cons.mpr ⟨fun c hc => ?_, ih hr⟩
        rcases Memory.mem_write hc with rfl | hc
        · exact show b < a by omega
        · exact hb c hc
  · rcases Memory.mem_write hc with rfl | hc
    · exact ha
    · exact h.2 c hc

theorem Memory.wf_clearTo (h : Memory.wf size m) (hn : n ≤ size) : Memory.wf size (m.clearTo n) := by
  induction n with
  | zero => exact h
  | succ k ih => exact Memory.wf_write (ih (by omega)) (by omega)

theorem Memory.read_clearTo (m : Memory) (n a : Nat) :
    (m.clearTo n).read a = if a < n then some 0 else m.read a := by
  induction n with
  | zero => simp [Memory.clearTo]
  | succ k ih =>
    rw [Memory.clearTo, Memory.read_write, ih]
    split_ifs <;> first | rfl | omega

/-- An address outside a canonical buffer holds no value. -/
theorem Memory.read_outside (h : Memory.wf size m) (ha : size ≤ a) : m.read a = none := by
  obtain ⟨-, hb⟩ := h
  induction m with
  | nil => rfl
  | cons c rest ih =>
    obtain ⟨b, u⟩ := c
    have : b < size := hb (b, u) (by simp)
    simp only [Memory.read]
    rw [if_neg (by omega)]
    exact ih fun d hd => hb d (by simp [hd])

/-- A run of bytes reads whole exactly when every byte of it holds a value. -/
theorem Memory.readRun_isSome (m : Memory) (a n : Nat) :
    (m.readRun a n).isSome ↔ ∀ k < n, (m.read (a + k)).isSome := by
  induction n generalizing a with
  | zero => simp [Memory.readRun]
  | succ n ih =>
    constructor
    · intro h k hk
      unfold Memory.readRun at h
      cases hr : m.read a with
      | none => simp [hr] at h
      | some b =>
        cases hrest : m.readRun (a + 1) n with
        | none => simp [hr, hrest] at h
        | some rest =>
          cases k with
          | zero => simp [hr]
          | succ k =>
            have := (ih (a + 1)).mp (by simp [hrest]) k (by omega)
            rwa [show a + 1 + k = a + (k + 1) by omega] at this
    · intro h
      have h₀ := h 0 (by omega)
      have h₁ := (ih (a + 1)).mpr fun k hk => by
        have := h (k + 1) (by omega)
        rwa [show a + (k + 1) = a + 1 + k by omega] at this
      obtain ⟨b, hb⟩ := Option.isSome_iff_exists.mp h₀
      obtain ⟨rest, hrest⟩ := Option.isSome_iff_exists.mp h₁
      rw [Nat.add_zero] at hb
      simp [Memory.readRun, hb, hrest]

theorem Memory.readRun_length {bs : List Byte} (h : m.readRun a n = some bs) : bs.length = n := by
  induction n generalizing a bs with
  | zero => simp_all [Memory.readRun]
  | succ n ih =>
    unfold Memory.readRun at h
    split at h
    · next b rest _ hr => cases h; simp [ih hr]
    · cases h

/-- Byte `k` of a run is the byte at address `a + k`. -/
theorem Memory.readRun_getElem {bs : List Byte} (h : m.readRun a n = some bs) {k : Nat} (hk : k < n) :
    m.read (a + k) = bs[k]? := by
  induction n generalizing a bs k with
  | zero => omega
  | succ n ih =>
    unfold Memory.readRun at h
    split at h
    · next b rest hb hr =>
      cases h
      cases k with
      | zero => simpa using hb
      | succ k =>
        rw [show a + (k + 1) = a + 1 + k by omega, ih hr (by omega)]
        simp
    · cases h

/-- A listed byte below the run does not matter to it. -/
theorem Memory.readRun_cons_of_lt (m : Memory) (v : Byte) {b : Nat} : ∀ (n : Nat) {a : Nat}, b < a →
    Memory.readRun ((b, v) :: m) a n = m.readRun a n
  | 0, _, _ => rfl
  | n + 1, a, h => by
    have hr : Memory.read ((b, v) :: m) a = m.read a := if_neg (by omega)
    simp only [Memory.readRun, hr, Memory.readRun_cons_of_lt m v n (Nat.lt_succ_of_lt h)]

/-- A run of equal bytes is read back. -/
theorem Memory.readRun_const (v : Byte) : ∀ n a : Nat,
    Memory.readRun ((List.range' a n).map fun b => (b, v)) a n = some (List.replicate n v)
  | 0, _ => rfl
  | n + 1, a => by
    have hr : Memory.read ((a, v) :: (List.range' (a + 1) n).map fun b => (b, v)) a = some v := if_pos rfl
    simp only [List.range'_succ, List.map_cons, Memory.readRun, hr,
      Memory.readRun_cons_of_lt _ v n (Nat.lt_succ_self a), Memory.readRun_const v n (a + 1), List.replicate_succ]

/-- In canonical form, writing the byte an address already holds changes nothing. -/
theorem Memory.write_of_read {size : Nat} {m : Memory} {a : Nat} {v : Byte} (h : Memory.wf size m)
    (hr : m.read a = some v) : m.write a v = m := by
  induction m with
  | nil => cases hr
  | cons c m ih =>
    obtain ⟨b, u⟩ := c
    have hm : Memory.wf size m := ⟨(List.pairwise_cons.mp h.1).2, fun c hc => h.2 c (List.mem_cons_of_mem _ hc)⟩
    simp only [Memory.read] at hr
    simp only [Memory.write]
    split at hr
    · next e => cases hr; simp [e]
    · next e =>
      have hlt : ¬ a < b := fun hab => by
        have hall : ∀ c ∈ m, b < c.1 := (List.pairwise_cons.mp h.1).1
        have : Memory.read m a = none := by
          clear ih hr h hm
          induction m with
          | nil => rfl
          | cons d m ih' =>
            have := hall d List.mem_cons_self
            exact (if_neg (by omega)).trans (ih' fun c hc => hall c (List.mem_cons_of_mem _ hc))
        rw [this] at hr; cases hr
      rw [if_neg hlt, if_neg e, ih hm hr]

end Sys2Proof.Machine
end

