-- ==== Sys2Proof/Laws/State.lean ====
section
/-! SUPPORT. One lemma per field per update of the state, each true by rfl, so that no proof unfolds a record update. -/

namespace Sys2Proof.Machine

/-! ### writeRes -/

@[simp] theorem writeRes_res (v : Byte) (s : State) : (writeRes v s).res = v := rfl
@[simp] theorem writeRes_resw (v : Byte) (s : State) : (writeRes v s).resw = true := rfl
@[simp] theorem writeRes_cp (v : Byte) (s : State) : (writeRes v s).cp = s.cp := rfl
@[simp] theorem writeRes_lp0 (v : Byte) (s : State) : (writeRes v s).lp0 = s.lp0 := rfl
@[simp] theorem writeRes_lp1 (v : Byte) (s : State) : (writeRes v s).lp1 = s.lp1 := rfl
@[simp] theorem writeRes_j (v : Byte) (s : State) : (writeRes v s).j = s.j := rfl
@[simp] theorem writeRes_q (v : Byte) (s : State) : (writeRes v s).q = s.q := rfl
@[simp] theorem writeRes_qopen (v : Byte) (s : State) : (writeRes v s).qopen = s.qopen := rfl
@[simp] theorem writeRes_tb (v : Byte) (s : State) : (writeRes v s).tb = s.tb := rfl
@[simp] theorem writeRes_fault (v : Byte) (s : State) : (writeRes v s).fault = s.fault := rfl
@[simp] theorem writeRes_pt (v : Byte) (s : State) : (writeRes v s).pt = s.pt := rfl
@[simp] theorem writeRes_cpmt (v : Byte) (s : State) : (writeRes v s).cpmt = s.cpmt := rfl
@[simp] theorem writeRes_pageBuf (v : Byte) (s : State) : (writeRes v s).pageBuf = s.pageBuf := rfl
@[simp] theorem writeRes_eccBuf (v : Byte) (s : State) : (writeRes v s).eccBuf = s.eccBuf := rfl
@[simp] theorem writeRes_cfg (v : Byte) (s : State) : (writeRes v s).cfg = s.cfg := rfl
@[simp] theorem writeRes_pending (v : Byte) (s : State) : (writeRes v s).pending = s.pending := rfl
@[simp] theorem writeRes_answers (v : Byte) (s : State) : (writeRes v s).answers = s.answers := rfl
@[simp] theorem writeRes_draws (v : Byte) (s : State) : (writeRes v s).draws = s.draws := rfl

/-! ### answer -/

@[simp] theorem answer_res (x : Answer) (s : State) : (answer x s).res = s.res := rfl
@[simp] theorem answer_resw (x : Answer) (s : State) : (answer x s).resw = s.resw := rfl
@[simp] theorem answer_cp (x : Answer) (s : State) : (answer x s).cp = s.cp := rfl
@[simp] theorem answer_lp0 (x : Answer) (s : State) : (answer x s).lp0 = s.lp0 := rfl
@[simp] theorem answer_lp1 (x : Answer) (s : State) : (answer x s).lp1 = s.lp1 := rfl
@[simp] theorem answer_j (x : Answer) (s : State) : (answer x s).j = s.j := rfl
@[simp] theorem answer_q (x : Answer) (s : State) : (answer x s).q = s.q := rfl
@[simp] theorem answer_qopen (x : Answer) (s : State) : (answer x s).qopen = s.qopen := rfl
@[simp] theorem answer_tb (x : Answer) (s : State) : (answer x s).tb = s.tb := rfl
@[simp] theorem answer_fault (x : Answer) (s : State) : (answer x s).fault = s.fault := rfl
@[simp] theorem answer_pt (x : Answer) (s : State) : (answer x s).pt = s.pt := rfl
@[simp] theorem answer_cpmt (x : Answer) (s : State) : (answer x s).cpmt = s.cpmt := rfl
@[simp] theorem answer_pageBuf (x : Answer) (s : State) : (answer x s).pageBuf = s.pageBuf := rfl
@[simp] theorem answer_eccBuf (x : Answer) (s : State) : (answer x s).eccBuf = s.eccBuf := rfl
@[simp] theorem answer_cfg (x : Answer) (s : State) : (answer x s).cfg = s.cfg := rfl
@[simp] theorem answer_pending (x : Answer) (s : State) : (answer x s).pending = s.pending := rfl
@[simp] theorem answer_answers (x : Answer) (s : State) : (answer x s).answers = s.answers ++ [x] := rfl
@[simp] theorem answer_draws (x : Answer) (s : State) : (answer x s).draws = s.draws := rfl

/-! ### seedQuarter -/

@[simp] theorem seedQuarter_res (q : BitVec 2) (s : State) : (seedQuarter q s).res = s.res := rfl
@[simp] theorem seedQuarter_resw (q : BitVec 2) (s : State) : (seedQuarter q s).resw = s.resw := rfl
@[simp] theorem seedQuarter_cp (q : BitVec 2) (s : State) : (seedQuarter q s).cp = cpSeed := rfl
@[simp] theorem seedQuarter_lp0 (q : BitVec 2) (s : State) : (seedQuarter q s).lp0 = lpSeed := rfl
@[simp] theorem seedQuarter_lp1 (q : BitVec 2) (s : State) : (seedQuarter q s).lp1 = lpSeed := rfl
@[simp] theorem seedQuarter_j (q : BitVec 2) (s : State) : (seedQuarter q s).j = 0 := rfl
@[simp] theorem seedQuarter_q (q : BitVec 2) (s : State) : (seedQuarter q s).q = q := rfl
@[simp] theorem seedQuarter_qopen (q : BitVec 2) (s : State) : (seedQuarter q s).qopen = s.qopen := rfl
@[simp] theorem seedQuarter_tb (q : BitVec 2) (s : State) : (seedQuarter q s).tb = s.tb := rfl
@[simp] theorem seedQuarter_fault (q : BitVec 2) (s : State) : (seedQuarter q s).fault = s.fault := rfl
@[simp] theorem seedQuarter_pt (q : BitVec 2) (s : State) : (seedQuarter q s).pt = s.pt := rfl
@[simp] theorem seedQuarter_cpmt (q : BitVec 2) (s : State) : (seedQuarter q s).cpmt = s.cpmt := rfl
@[simp] theorem seedQuarter_pageBuf (q : BitVec 2) (s : State) : (seedQuarter q s).pageBuf = s.pageBuf := rfl
@[simp] theorem seedQuarter_eccBuf (q : BitVec 2) (s : State) : (seedQuarter q s).eccBuf = s.eccBuf := rfl
@[simp] theorem seedQuarter_cfg (q : BitVec 2) (s : State) : (seedQuarter q s).cfg = s.cfg := rfl
@[simp] theorem seedQuarter_pending (q : BitVec 2) (s : State) : (seedQuarter q s).pending = s.pending := rfl
@[simp] theorem seedQuarter_answers (q : BitVec 2) (s : State) : (seedQuarter q s).answers = s.answers := rfl
@[simp] theorem seedQuarter_draws (q : BitVec 2) (s : State) : (seedQuarter q s).draws = s.draws := rfl

/-! ### accumulate -/

@[simp] theorem accumulate_res (s : State) (d : Byte) : (accumulate s d).res = s.res := rfl
@[simp] theorem accumulate_resw (s : State) (d : Byte) : (accumulate s d).resw = s.resw := rfl
@[simp] theorem accumulate_cp (s : State) (d : Byte) : (accumulate s d).cp = cpStep s.cfg.cpMode s.cpmt s.cp d := rfl
@[simp] theorem accumulate_lp0 (s : State) (d : Byte) : (accumulate s d).lp0 =
    if ptAt s.pt d = 1 then s.lp0 ^^^ ~~~lineIndex s.cfg.lpIndex s.j s.q else s.lp0 := rfl
@[simp] theorem accumulate_lp1 (s : State) (d : Byte) : (accumulate s d).lp1 =
    if ptAt s.pt d = 1 then s.lp1 ^^^ lineIndex s.cfg.lpIndex s.j s.q else s.lp1 := rfl
@[simp] theorem accumulate_j (s : State) (d : Byte) : (accumulate s d).j = s.j + 1 := rfl
@[simp] theorem accumulate_q (s : State) (d : Byte) : (accumulate s d).q = s.q := rfl
@[simp] theorem accumulate_qopen (s : State) (d : Byte) : (accumulate s d).qopen = s.qopen := rfl
@[simp] theorem accumulate_tb (s : State) (d : Byte) : (accumulate s d).tb = s.tb := rfl
@[simp] theorem accumulate_fault (s : State) (d : Byte) : (accumulate s d).fault = s.fault := rfl
@[simp] theorem accumulate_pt (s : State) (d : Byte) : (accumulate s d).pt = s.pt := rfl
@[simp] theorem accumulate_cpmt (s : State) (d : Byte) : (accumulate s d).cpmt = s.cpmt := rfl
@[simp] theorem accumulate_pageBuf (s : State) (d : Byte) : (accumulate s d).pageBuf = s.pageBuf := rfl
@[simp] theorem accumulate_eccBuf (s : State) (d : Byte) : (accumulate s d).eccBuf = s.eccBuf := rfl
@[simp] theorem accumulate_cfg (s : State) (d : Byte) : (accumulate s d).cfg = s.cfg := rfl
@[simp] theorem accumulate_pending (s : State) (d : Byte) : (accumulate s d).pending = s.pending := rfl
@[simp] theorem accumulate_answers (s : State) (d : Byte) : (accumulate s d).answers = s.answers := rfl
@[simp] theorem accumulate_draws (s : State) (d : Byte) : (accumulate s d).draws = s.draws := rfl

/-! ### emitGroup -/

@[simp] theorem emitGroup_res (s : State) : (emitGroup s).res = s.res := rfl
@[simp] theorem emitGroup_resw (s : State) : (emitGroup s).resw = s.resw := rfl
@[simp] theorem emitGroup_cp (s : State) : (emitGroup s).cp = s.cp := rfl
@[simp] theorem emitGroup_lp0 (s : State) : (emitGroup s).lp0 = s.lp0 := rfl
@[simp] theorem emitGroup_lp1 (s : State) : (emitGroup s).lp1 = s.lp1 := rfl
@[simp] theorem emitGroup_j (s : State) : (emitGroup s).j = s.j := rfl
@[simp] theorem emitGroup_q (s : State) : (emitGroup s).q = s.q := rfl
@[simp] theorem emitGroup_qopen (s : State) : (emitGroup s).qopen = s.qopen := rfl
@[simp] theorem emitGroup_tb (s : State) : (emitGroup s).tb = s.tb := rfl
@[simp] theorem emitGroup_fault (s : State) : (emitGroup s).fault = s.fault := rfl
@[simp] theorem emitGroup_pt (s : State) : (emitGroup s).pt = s.pt := rfl
@[simp] theorem emitGroup_cpmt (s : State) : (emitGroup s).cpmt = s.cpmt := rfl
@[simp] theorem emitGroup_pageBuf (s : State) : (emitGroup s).pageBuf = s.pageBuf := rfl
@[simp] theorem emitGroup_eccBuf (s : State) : (emitGroup s).eccBuf =
    ((s.eccBuf.write (groupBase s.q) (columnByte s)).write (groupBase s.q + 1)
      (s.lp0 &&& lp0OutputMask)).write (groupBase s.q + 2) s.lp1 := rfl
@[simp] theorem emitGroup_cfg (s : State) : (emitGroup s).cfg = s.cfg := rfl
@[simp] theorem emitGroup_pending (s : State) : (emitGroup s).pending = s.pending := rfl
@[simp] theorem emitGroup_answers (s : State) : (emitGroup s).answers = s.answers := rfl
@[simp] theorem emitGroup_draws (s : State) : (emitGroup s).draws = drawsAfterEmit s := rfl

/-! ### resetBlock -/

@[simp] theorem resetBlock_res (s : State) : (resetBlock s).res = State.reset.res := rfl
@[simp] theorem resetBlock_resw (s : State) : (resetBlock s).resw = State.reset.resw := rfl
@[simp] theorem resetBlock_cp (s : State) : (resetBlock s).cp = State.reset.cp := rfl
@[simp] theorem resetBlock_lp0 (s : State) : (resetBlock s).lp0 = State.reset.lp0 := rfl
@[simp] theorem resetBlock_lp1 (s : State) : (resetBlock s).lp1 = State.reset.lp1 := rfl
@[simp] theorem resetBlock_j (s : State) : (resetBlock s).j = State.reset.j := rfl
@[simp] theorem resetBlock_q (s : State) : (resetBlock s).q = State.reset.q := rfl
@[simp] theorem resetBlock_qopen (s : State) : (resetBlock s).qopen = State.reset.qopen := rfl
@[simp] theorem resetBlock_tb (s : State) : (resetBlock s).tb = State.reset.tb := rfl
@[simp] theorem resetBlock_fault (s : State) : (resetBlock s).fault = State.reset.fault := rfl
@[simp] theorem resetBlock_pt (s : State) : (resetBlock s).pt = State.reset.pt := rfl
@[simp] theorem resetBlock_cpmt (s : State) : (resetBlock s).cpmt = State.reset.cpmt := rfl
@[simp] theorem resetBlock_pageBuf (s : State) : (resetBlock s).pageBuf = State.reset.pageBuf := rfl
@[simp] theorem resetBlock_eccBuf (s : State) : (resetBlock s).eccBuf = State.reset.eccBuf := rfl
@[simp] theorem resetBlock_cfg (s : State) : (resetBlock s).cfg = s.cfg := rfl
@[simp] theorem resetBlock_pending (s : State) : (resetBlock s).pending = s.pending := rfl
@[simp] theorem resetBlock_answers (s : State) : (resetBlock s).answers = s.answers := rfl
@[simp] theorem resetBlock_draws (s : State) : (resetBlock s).draws = s.draws := rfl

end Sys2Proof.Machine
end

