-- ==== Sys2Proof/Laws/Ops.lean ====
section
/-! SUPPORT. What each shared operation can do, said once: fault entry, the faulted state's guard, the read ports, the
emit of a group, the passes over a quarter and a page, and one step of the system. -/

namespace Sys2Proof.Machine

variable {s t : State}

/-! ### Fault entry and the guard -/

theorem raise_of_noFault (c : FaultCode) (h : s.fault = .noFault) : raise c s = { s with fault := c } :=
  if_pos h

theorem raise_of_faulted (c : FaultCode) (h : s.fault ≠ .noFault) : raise c s = s := if_neg h

/-- Fault entry changes nothing but FAULT. -/
theorem raise_cases (c : FaultCode) (s : State) :
    (s.fault = .noFault ∧ raise c s = { s with fault := c }) ∨ (s.fault ≠ .noFault ∧ raise c s = s) := by
  unfold raise; split_ifs with h <;> simp [h]

theorem unlessFaulted_of_noFault (t : State) (h : s.fault = .noFault) : unlessFaulted s t = t := if_pos h

theorem unlessFaulted_of_faulted (t : State) (h : s.fault ≠ .noFault) : unlessFaulted s t = s := if_neg h

theorem unlessFaulted_cases (s t : State) :
    (s.fault = .noFault ∧ unlessFaulted s t = t) ∨ (s.fault ≠ .noFault ∧ unlessFaulted s t = s) := by
  unfold unlessFaulted; split_ifs with h <;> simp [h]

@[simp] theorem raise_fault (c : FaultCode) (s : State) :
    (raise c s).fault = if s.fault = .noFault then c else s.fault := by
  unfold raise; split_ifs <;> rfl

@[simp] theorem raise_res (c : FaultCode) (s : State) : (raise c s).res = s.res := by
  unfold raise; split_ifs <;> rfl
@[simp] theorem raise_resw (c : FaultCode) (s : State) : (raise c s).resw = s.resw := by
  unfold raise; split_ifs <;> rfl
@[simp] theorem raise_cp (c : FaultCode) (s : State) : (raise c s).cp = s.cp := by
  unfold raise; split_ifs <;> rfl
@[simp] theorem raise_lp0 (c : FaultCode) (s : State) : (raise c s).lp0 = s.lp0 := by
  unfold raise; split_ifs <;> rfl
@[simp] theorem raise_lp1 (c : FaultCode) (s : State) : (raise c s).lp1 = s.lp1 := by
  unfold raise; split_ifs <;> rfl
@[simp] theorem raise_j (c : FaultCode) (s : State) : (raise c s).j = s.j := by
  unfold raise; split_ifs <;> rfl
@[simp] theorem raise_q (c : FaultCode) (s : State) : (raise c s).q = s.q := by
  unfold raise; split_ifs <;> rfl
@[simp] theorem raise_qopen (c : FaultCode) (s : State) : (raise c s).qopen = s.qopen := by
  unfold raise; split_ifs <;> rfl
@[simp] theorem raise_tb (c : FaultCode) (s : State) : (raise c s).tb = s.tb := by
  unfold raise; split_ifs <;> rfl
@[simp] theorem raise_pt (c : FaultCode) (s : State) : (raise c s).pt = s.pt := by
  unfold raise; split_ifs <;> rfl
@[simp] theorem raise_cpmt (c : FaultCode) (s : State) : (raise c s).cpmt = s.cpmt := by
  unfold raise; split_ifs <;> rfl
@[simp] theorem raise_pageBuf (c : FaultCode) (s : State) : (raise c s).pageBuf = s.pageBuf := by
  unfold raise; split_ifs <;> rfl
@[simp] theorem raise_eccBuf (c : FaultCode) (s : State) : (raise c s).eccBuf = s.eccBuf := by
  unfold raise; split_ifs <;> rfl
@[simp] theorem raise_cfg (c : FaultCode) (s : State) : (raise c s).cfg = s.cfg := by
  unfold raise; split_ifs <;> rfl
@[simp] theorem raise_pending (c : FaultCode) (s : State) : (raise c s).pending = s.pending := by
  unfold raise; split_ifs <;> rfl
@[simp] theorem raise_answers (c : FaultCode) (s : State) : (raise c s).answers = s.answers := by
  unfold raise; split_ifs <;> rfl
@[simp] theorem raise_draws (c : FaultCode) (s : State) : (raise c s).draws = s.draws := by
  unfold raise; split_ifs <;> rfl

/-- A read port answers the byte, or nothing and the fault. -/
theorem answerByte_cases (v : Option Byte) (s : State) :
    (∃ b, v = some b ∧ answerByte v s = answer (.byte b) s) ∨
      (v = none ∧ answerByte v s = raise .uninitialisedRead (answer .noValue s)) := by
  cases v <;> simp [answerByte]

/-! ### The accumulators -/

@[simp] theorem ptAt_builtPt (b : Byte) : ptAt builtPt b = parity b := by
  simp [ptAt, builtPt]

theorem maskLanes_congr {p p' : Byte → Bit} (h : ∀ b, p b = p' b) (b : Byte) :
    maskLanes p b = maskLanes p' b := by
  rw [funext h]

@[simp] theorem cpmtAt_builtCpmt (pt : Vector Bit 256) (b : Byte) :
    cpmtAt (builtCpmt pt) b = maskLanes (ptAt pt) b := by
  simp [cpmtAt, builtCpmt]

/-- What a pass over a list of bytes leaves alone: everything but CP, LP0, LP1 and J. -/
theorem foldl_accumulate_frame (bs : List Byte) (s : State) :
    bs.foldl accumulate s =
      { s with
        cp := (bs.foldl accumulate s).cp
        lp0 := (bs.foldl accumulate s).lp0
        lp1 := (bs.foldl accumulate s).lp1
        j := (bs.foldl accumulate s).j } := by
  induction bs generalizing s with
  | nil => rfl
  | cons b bs ih => rw [List.foldl_cons, ih]; rfl

/-- A pass advances J by the number of bytes. -/
theorem foldl_accumulate_j (bs : List Byte) (s : State) :
    (bs.foldl accumulate s).j = s.j + BitVec.ofNat 8 bs.length := by
  induction bs generalizing s with
  | nil => simp
  | cons b bs ih =>
    rw [List.foldl_cons, ih, accumulate_j, List.length_cons, Nat.add_comm bs.length 1, BitVec.ofNat_add]
    rw [← BitVec.add_assoc]
    rfl

/-! ### Emitting a group -/

/-- The bytes of ECCBUF after a group is emitted. -/
theorem emitGroup_read (s : State) (a : Nat) :
    (emitGroup s).eccBuf.read a =
      if a = groupBase s.q then some (columnByte s)
      else if a = groupBase s.q + 1 then some (s.lp0 &&& lp0OutputMask)
      else if a = groupBase s.q + 2 then some s.lp1
      else s.eccBuf.read a := by
  rw [emitGroup_eccBuf]
  simp only [Memory.read_write]
  split_ifs <;> first | rfl | omega

theorem groupBase_lt (q : BitVec 2) : groupBase q + 2 < 12 := by
  have := q.isLt
  unfold groupBase groupBytes
  omega

/-! ### What a pass over a quarter or a page leaves alone -/

@[simp] theorem foldl_accumulate_res (bs : List Byte) (s : State) :
    (bs.foldl accumulate s).res = s.res := by rw [foldl_accumulate_frame]
@[simp] theorem foldl_accumulate_resw (bs : List Byte) (s : State) :
    (bs.foldl accumulate s).resw = s.resw := by rw [foldl_accumulate_frame]
@[simp] theorem foldl_accumulate_qopen (bs : List Byte) (s : State) :
    (bs.foldl accumulate s).qopen = s.qopen := by rw [foldl_accumulate_frame]
@[simp] theorem foldl_accumulate_tb (bs : List Byte) (s : State) :
    (bs.foldl accumulate s).tb = s.tb := by rw [foldl_accumulate_frame]
@[simp] theorem foldl_accumulate_fault (bs : List Byte) (s : State) :
    (bs.foldl accumulate s).fault = s.fault := by rw [foldl_accumulate_frame]
@[simp] theorem foldl_accumulate_pt (bs : List Byte) (s : State) :
    (bs.foldl accumulate s).pt = s.pt := by rw [foldl_accumulate_frame]
@[simp] theorem foldl_accumulate_cpmt (bs : List Byte) (s : State) :
    (bs.foldl accumulate s).cpmt = s.cpmt := by rw [foldl_accumulate_frame]
@[simp] theorem foldl_accumulate_pageBuf (bs : List Byte) (s : State) :
    (bs.foldl accumulate s).pageBuf = s.pageBuf := by rw [foldl_accumulate_frame]
@[simp] theorem foldl_accumulate_cfg (bs : List Byte) (s : State) :
    (bs.foldl accumulate s).cfg = s.cfg := by rw [foldl_accumulate_frame]
@[simp] theorem foldl_accumulate_pending (bs : List Byte) (s : State) :
    (bs.foldl accumulate s).pending = s.pending := by rw [foldl_accumulate_frame]
@[simp] theorem foldl_accumulate_answers (bs : List Byte) (s : State) :
    (bs.foldl accumulate s).answers = s.answers := by rw [foldl_accumulate_frame]
@[simp] theorem foldl_accumulate_q (bs : List Byte) (s : State) :
    (bs.foldl accumulate s).q = s.q := by rw [foldl_accumulate_frame]
@[simp] theorem foldl_accumulate_eccBuf (bs : List Byte) (s : State) :
    (bs.foldl accumulate s).eccBuf = s.eccBuf := by rw [foldl_accumulate_frame]
@[simp] theorem foldl_accumulate_draws (bs : List Byte) (s : State) :
    (bs.foldl accumulate s).draws = s.draws := by rw [foldl_accumulate_frame]

@[simp] theorem encodeQuarter_res (page : List Byte) (s : State) (q : BitVec 2) :
    (encodeQuarter page s q).res = s.res := by simp [encodeQuarter]
@[simp] theorem encodeQuarter_resw (page : List Byte) (s : State) (q : BitVec 2) :
    (encodeQuarter page s q).resw = s.resw := by simp [encodeQuarter]
@[simp] theorem encodeQuarter_qopen (page : List Byte) (s : State) (q : BitVec 2) :
    (encodeQuarter page s q).qopen = s.qopen := by simp [encodeQuarter]
@[simp] theorem encodeQuarter_tb (page : List Byte) (s : State) (q : BitVec 2) :
    (encodeQuarter page s q).tb = s.tb := by simp [encodeQuarter]
@[simp] theorem encodeQuarter_fault (page : List Byte) (s : State) (q : BitVec 2) :
    (encodeQuarter page s q).fault = s.fault := by simp [encodeQuarter]
@[simp] theorem encodeQuarter_pt (page : List Byte) (s : State) (q : BitVec 2) :
    (encodeQuarter page s q).pt = s.pt := by simp [encodeQuarter]
@[simp] theorem encodeQuarter_cpmt (page : List Byte) (s : State) (q : BitVec 2) :
    (encodeQuarter page s q).cpmt = s.cpmt := by simp [encodeQuarter]
@[simp] theorem encodeQuarter_pageBuf (page : List Byte) (s : State) (q : BitVec 2) :
    (encodeQuarter page s q).pageBuf = s.pageBuf := by simp [encodeQuarter]
@[simp] theorem encodeQuarter_cfg (page : List Byte) (s : State) (q : BitVec 2) :
    (encodeQuarter page s q).cfg = s.cfg := by simp [encodeQuarter]
@[simp] theorem encodeQuarter_pending (page : List Byte) (s : State) (q : BitVec 2) :
    (encodeQuarter page s q).pending = s.pending := by simp [encodeQuarter]
@[simp] theorem encodeQuarter_answers (page : List Byte) (s : State) (q : BitVec 2) :
    (encodeQuarter page s q).answers = s.answers := by simp [encodeQuarter]

@[simp] theorem encodePage_res (page : List Byte) (s : State) : (encodePage page s).res = s.res := by
  simp [encodePage]
@[simp] theorem encodePage_resw (page : List Byte) (s : State) : (encodePage page s).resw = s.resw := by
  simp [encodePage]
@[simp] theorem encodePage_qopen (page : List Byte) (s : State) : (encodePage page s).qopen = s.qopen := by
  simp [encodePage]
@[simp] theorem encodePage_tb (page : List Byte) (s : State) : (encodePage page s).tb = s.tb := by
  simp [encodePage]
@[simp] theorem encodePage_fault (page : List Byte) (s : State) : (encodePage page s).fault = s.fault := by
  simp [encodePage]
@[simp] theorem encodePage_pt (page : List Byte) (s : State) : (encodePage page s).pt = s.pt := by
  simp [encodePage]
@[simp] theorem encodePage_cpmt (page : List Byte) (s : State) : (encodePage page s).cpmt = s.cpmt := by
  simp [encodePage]
@[simp] theorem encodePage_pageBuf (page : List Byte) (s : State) : (encodePage page s).pageBuf = s.pageBuf := by
  simp [encodePage]
@[simp] theorem encodePage_cfg (page : List Byte) (s : State) : (encodePage page s).cfg = s.cfg := by
  simp [encodePage]
@[simp] theorem encodePage_pending (page : List Byte) (s : State) : (encodePage page s).pending = s.pending := by
  simp [encodePage]
@[simp] theorem encodePage_answers (page : List Byte) (s : State) : (encodePage page s).answers = s.answers := by
  simp [encodePage]

/-- A pass over a page of 512 bytes ends with Q = 3 and J = 128 (41_ecc R143). -/
theorem encodePage_q (page : List Byte) (s : State) : (encodePage page s).q = 3 := by
  simp [encodePage, encodeQuarter]

theorem encodePage_j (page : List Byte) (s : State) (h : page.length = 512) : (encodePage page s).j = 128 := by
  simp [encodePage, encodeQuarter, foldl_accumulate_j, quarterBytes, h]

/-- A quarter of a page stores to the three bytes of its group only. -/
theorem encodeQuarter_read_of_ne (page : List Byte) (s : State) (q : BitVec 2) {a : Nat}
    (h : ¬ (groupBase q ≤ a ∧ a < groupBase q + 3)) :
    (encodeQuarter page s q).eccBuf.read a = s.eccBuf.read a := by
  unfold encodeQuarter
  rw [emitGroup_read]
  simp only [foldl_accumulate_q, foldl_accumulate_eccBuf, seedQuarter_q, seedQuarter_eccBuf]
  rw [if_neg, if_neg, if_neg] <;> omega

/-- A page stores to bytes 0 to 11 only. -/
theorem encodePage_read_of_le (page : List Byte) (s : State) {a : Nat} (h : 12 ≤ a) :
    (encodePage page s).eccBuf.read a = s.eccBuf.read a := by
  have hq : ∀ q : BitVec 2, ¬ (groupBase q ≤ a ∧ a < groupBase q + 3) := fun q => by
    have := groupBase_lt q
    omega
  simp [encodePage, encodeQuarter_read_of_ne, hq]

/-! ### One step -/

/-- Everything one step can do: wait, or take the host's oldest action. -/
theorem step_cases (s : State) :
    (s.pending = [] ∧ step s = .next s) ∨
      ∃ x rest, s.pending = x :: rest ∧ step s = act x { s with pending := rest } := by
  unfold step nextAction
  split
  · next h => exact .inl ⟨h, rfl⟩
  · next x rest h => exact .inr ⟨x, rest, h, rfl⟩

/-- A run of `k + 1` steps is one step and a run of `k`. -/
theorem run_succ_of_step {k : Nat} (h : step s = .next t) :
    Host.Core.run Sys2Proof.core (k + 1) s = Host.Core.run Sys2Proof.core k t := by
  refine (Host.Core.run.eq_2 Sys2Proof.core s k).trans ?_
  have h' : Sys2Proof.core.step s = .next t := h
  rw [h']

end Sys2Proof.Machine
end

