-- ==== Sys2Proof/Laws/Exec.lean ====
section
/-! SUPPORT. Everything one command can do, said once, and the induction principles over the host's actions and over
steps, so that no later proof unfolds a meaning. -/

namespace Sys2Proof.Machine

variable {s t : State}

/-- The state a command's own effect leaves, under the checks it passed (40_tables, 41_ecc). -/
def Effect (i : Instr) (s t : State) : Prop :=
  match i with
  | .tbuild => t = { s with pt := builtPt, cpmt := builtCpmt builtPt, tb := true }
  | .poppar d => t = writeRes ((parity d).setWidth 8) s
  | .cpmgen d => t = writeRes (columnParityMask d) s
  | .ptlkp d => s.tb = true ∧ t = writeRes ((ptAt s.pt d).setWidth 8) s
  | .cpmlkp d => s.tb = true ∧ t = writeRes (cpmtAt s.cpmt d) s
  | .qinit q => s.qopen = false ∧ t = { seedQuarter q s with qopen := true }
  | .qbyte d => s.tb = true ∧ s.qopen = true ∧ s.j ≠ 128 ∧ t = accumulate s d
  | .qemit => s.qopen = true ∧ ¬ s.j < 128 ∧ t = { emitGroup s with qopen := false }
  | .eclr => t = { s with eccBuf := s.eccBuf.clearTo eccBytes }
  | .epage => s.tb = true ∧ s.qopen = false ∧
      ∃ page, s.pageBuf.readRun 0 pageBytes = some page ∧ t = encodePage page s

/-- A command is discarded in the faulted state, or raises one fault and changes nothing else, or has its effect. -/
theorem exec_cases {i : Instr} (h : exec i s = .next t) :
    (s.fault ≠ .noFault ∧ t = s) ∨
      (s.fault = .noFault ∧ ∃ c, c ≠ .noFault ∧ t = { s with fault := c }) ∨
      (s.fault = .noFault ∧ Effect i s t) := by
  by_cases hf : s.fault = .noFault
  · right
    have stop : ∀ c, c ≠ .noFault → raise c s = t → ∃ c, c ≠ .noFault ∧ t = { s with fault := c } := fun c hc ht =>
      ⟨c, hc, by rw [← ht, raise_of_noFault c hf]⟩
    suffices h' : (∃ c, c ≠ .noFault ∧ t = { s with fault := c }) ∨ Effect i s t from
      h'.imp (⟨hf, ·⟩) (⟨hf, ·⟩)
    cases i <;> simp only [exec, execTbuild, execPoppar, execCpmgen, execPtlkp, execCpmlkp, execQinit, execQbyte,
      execQemit, execEclr, execEpage, unlessFaulted_of_noFault _ hf, Host.Outcome.next.injEq] at h <;>
      simp only [Effect]
    case tbuild | poppar | cpmgen | eclr => exact .inr h.symm
    case ptlkp | cpmlkp | qinit =>
      split at h
      · exact .inl (stop _ (by decide) h)
      · next h₁ => exact .inr ⟨by simpa using h₁, h.symm⟩
    case qbyte =>
      split at h
      · exact .inl (stop _ (by decide) h)
      · split at h
        · exact .inl (stop _ (by decide) h)
        · split at h
          · exact .inl (stop _ (by decide) h)
          · next h₁ h₂ h₃ => exact .inr ⟨by simpa using h₁, by simpa using h₂, h₃, h.symm⟩
    case qemit =>
      split at h
      · exact .inl (stop _ (by decide) h)
      · split at h
        · exact .inl (stop _ (by decide) h)
        · next h₁ h₂ => exact .inr ⟨by simpa using h₁, h₂, h.symm⟩
    case epage =>
      split at h
      · exact .inl (stop _ (by decide) h)
      · split at h
        · exact .inl (stop _ (by decide) h)
        · split at h
          · exact .inl (stop _ (by decide) h)
          · next h₁ h₂ _ page hp => exact .inr ⟨by simpa using h₁, by simpa using h₂, page, hp, h.symm⟩
  · refine .inl ⟨hf, ?_⟩
    cases i <;> simp only [exec, execTbuild, execPoppar, execCpmgen, execPtlkp, execCpmlkp, execQinit, execQbyte,
      execQemit, execEclr, execEpage, unlessFaulted_of_faulted _ hf, Host.Outcome.next.injEq] at h <;> exact h.symm

/-- EPAGE where nothing fails its checks (41_ecc R143). -/
theorem exec_epage_of_run {page : List Byte} (hf : s.fault = .noFault) (ht : s.tb = true) (hq : s.qopen = false)
    (hp : s.pageBuf.readRun 0 pageBytes = some page) : exec .epage s = .next (encodePage page s) := by
  simp only [exec, execEpage, unlessFaulted_of_noFault _ hf, ht, hq, hp, Bool.true_eq_false, Bool.false_eq_true,
    if_false]

/-- What every command's effect keeps, every command keeps. -/
theorem exec_keeps {P : State → Prop} {i : Instr} (hfault : ∀ c, P s → P { s with fault := c })
    (heffect : s.fault = .noFault → Effect i s t → P s → P t) (hs : P s) (h : exec i s = .next t) : P t := by
  rcases exec_cases h with ⟨-, rfl⟩ | ⟨-, c, -, rfl⟩ | ⟨hf, he⟩
  · exact hs
  · exact hfault c hs
  · exact heffect hf he hs

/-- What a fault entry, an answer to the host, a page write, RESET and every command's effect keep, every action of the
host keeps. -/
theorem act_keeps {P : State → Prop}
    (hfault : ∀ s c, P s → P { s with fault := c })
    (hanswer : ∀ s x, P s → P (answer x s))
    (hpage : ∀ s a v, a < pageBytes → P s → P { s with pageBuf := s.pageBuf.write a v })
    (hreset : ∀ s, P s → P (resetBlock s))
    (heffect : ∀ i s t, s.fault = .noFault → Effect i s t → P s → P t)
    {x : HostAction} (hs : P s) (h : act x s = .next t) : P t := by
  have hraise : ∀ c s, P s → P (raise c s) := fun c s hs => by
    rcases raise_cases c s with ⟨-, e⟩ | ⟨-, e⟩ <;> rw [e]
    · exact hfault s c hs
    · exact hs
  have hread : ∀ v s, P s → P (answerByte v s) := fun v s hs => by
    rcases answerByte_cases v s with ⟨b, -, e⟩ | ⟨-, e⟩ <;> rw [e]
    · exact hanswer s _ hs
    · exact hraise _ _ (hanswer s _ hs)
  cases x with
  | command w =>
    simp only [act, presentWord] at h
    split at h
    · exact exec_keeps (hfault s) (heffect _ s t) hs h
    · cases h; exact hraise _ _ hs
  | pageWrite a v =>
    cases h
    rcases unlessFaulted_cases s { s with pageBuf := s.pageBuf.write a.toNat v } with ⟨-, e⟩ | ⟨-, e⟩ <;> rw [e]
    · exact hpage s _ v a.isLt hs
    · exact hs
  | pageRead a => cases h; exact hread _ _ hs
  | eccRead a => cases h; exact hread _ _ hs
  | resultRead => cases h; exact hread _ _ hs
  | statusRead => cases h; exact hanswer s _ hs
  | reset => cases h; exact hreset s hs

/-- What every action of the host keeps, and the host's queue does not touch, every step keeps. -/
theorem step_keeps {P : State → Prop} (hqueue : ∀ s rest, P s → P { s with pending := rest })
    (hact : ∀ x s t, P s → act x s = .next t → P t) (hs : P s) (h : step s = .next t) : P t := by
  rcases step_cases s with ⟨-, e⟩ | ⟨x, rest, -, e⟩
  · rw [e] at h; cases h; exact hs
  · rw [e] at h; exact hact x _ t (hqueue s rest hs) h

end Sys2Proof.Machine
end

