-- ==== Sys2Proof/Laws/PerInstr.lean ====
section
/-! SUPPORT. Per instruction: the word a command encodes to is selected by the row of the opcode map that bears its
mnemonic (30_encoding R72, R74). -/

namespace Sys2Proof.Laws.EncodedByItsRow

/-- The row with the command's own mnemonic selects the command's word. -/
def Statement (i : Instr) : Prop :=
  (opcodeMap.filter fun r => r.mnemonic == i.mnemonic).map (·.selects (encode i)) = [true]

theorem tbuild : Statement .tbuild := by unfold Statement; decide

theorem poppar (d : Byte) : Statement (.poppar d) := by
  unfold Statement; revert d; decide +kernel

theorem cpmgen (d : Byte) : Statement (.cpmgen d) := by
  unfold Statement; revert d; decide +kernel

theorem ptlkp (d : Byte) : Statement (.ptlkp d) := by
  unfold Statement; revert d; decide +kernel

theorem cpmlkp (d : Byte) : Statement (.cpmlkp d) := by
  unfold Statement; revert d; decide +kernel

theorem qinit (q : BitVec 2) : Statement (.qinit q) := by
  unfold Statement; revert q; decide +kernel

theorem qbyte (d : Byte) : Statement (.qbyte d) := by
  unfold Statement; revert d; decide +kernel

theorem qemit : Statement .qemit := by unfold Statement; decide

theorem eclr : Statement .eclr := by unfold Statement; decide

theorem epage : Statement .epage := by unfold Statement; decide

end Sys2Proof.Laws.EncodedByItsRow
end

