-- ==== Sys2Proof/Tests/Slice0.lean ====
section
/-! SUPPORT. Small tests of the model against the words and vectors of the spec, and a named witness for each
statement's hypotheses. Every expected value is the spec's: the rule or the vector is named in each docstring. -/

namespace Sys2Proof.Tests

open Sys2Proof Sys2Proof.Machine Sys2Proof.Safety Sys2Proof.Claims

/-! ### Words that are no commands (30_encoding R75) -/

/-- Cases (a) and (b): OPC 0x0 and OPC 0xB to 0xF. -/
theorem test_wellFormed_refuses_unassigned_opcodes :
    [0x0000#16, 0x0FFF, 0xB000, 0xC000, 0xD000, 0xE000, 0xF123].all
      (fun w => !Sys2Proof.Word.opcAssigned w && !Sys2Proof.Word.wellFormed w) = true := by decide

/-- Case (c): a must-be-zero bit, in each format. -/
theorem test_wellFormed_refuses_reserved_bits :
    [0x1001#16, 0x2400, 0x2100, 0x6001, 0x6400, 0x9800, 0xA0FF].all
      (fun w => Sys2Proof.Word.opcAssigned w && !Sys2Proof.Word.mustBeZeroClear w &&
        !Sys2Proof.Word.wellFormed w) = true := by decide

theorem test_wellFormed_accepts_commands :
    [0x1000#16, 0x2000, 0x30FF, 0x6300, 0xA000].all Sys2Proof.Word.wellFormed = true := by decide

theorem test_decode_names_the_refusal :
    decode 0x0000#16 = .error .opcodeZero ∧ decode 0xB000#16 = .error .opcodeUnassigned ∧
      decode 0x2400#16 = .error .mustBeZeroSet := by decide

/-! ### Decoding: one word of each command, bit by bit from the fields of 30_encoding R71 (95 V-ENC) -/

/-- FN: OPC, then twelve zeros. -/
theorem test_decode_FN :
    decode 0b0001_00_00_00000000#16 = .ok .tbuild ∧ decode 0b1000_00_00_00000000#16 = .ok .qemit ∧
      decode 0b1001_00_00_00000000#16 = .ok .eclr ∧ decode 0b1010_00_00_00000000#16 = .ok .epage := by decide

/-- FD: OPC, four zeros, the data byte. -/
theorem test_decode_FD :
    decode 0b0010_00_00_10100111#16 = .ok (.poppar 0xA7) ∧ decode 0b0011_00_00_00010011#16 = .ok (.cpmgen 0x13) ∧
      decode 0b0100_00_00_01111111#16 = .ok (.ptlkp 0x7F) ∧ decode 0b0101_00_00_10100111#16 = .ok (.cpmlkp 0xA7) ∧
      decode 0b0111_00_00_00010011#16 = .ok (.qbyte 0x13) := by decide

/-- FQ: OPC, two zeros, the quarter, eight zeros. -/
theorem test_decode_FQ :
    decode 0b0110_00_10_00000000#16 = .ok (.qinit 2) ∧ decode 0b0110_00_11_00000000#16 = .ok (.qinit 3) := by decide

/-- As the opcode table numbers bits, and as two bytes, low byte first (20_memory R55). -/
theorem test_decodeTableWord :
    decodeTableWord 16 0x7013 = some (.qbyte 0x13) ∧ decodeTableWord 16 0xB000 = none ∧
      decodeBytes [0x13, 0x70] = some (.ok (.qbyte 0x13), []) := by decide

/-! ### States and runs -/

/-- After RESET, TBUILD. -/
def built : State := { State.reset with pt := builtPt, cpmt := builtCpmt builtPt, tb := true }

/-- `built` with quarter `q` open and `n` zero bytes accumulated: seeds and J (41_ecc R131, R132). -/
def opened (q : BitVec 2) (n : Byte) : State :=
  { built with q := q, cp := 0x77, lp0 := 0x7F, lp1 := 0x7F, j := n, qopen := true }

/-- A buffer whose first `n` bytes hold 0x00. -/
@[irreducible] def zerosTo (n : Nat) : Memory := (List.range n).map fun a => (a, 0)

/-- `built` with the zero page written. -/
def paged : State := { built with pageBuf := zerosTo 512 }

/-- The state one host action leaves. -/
def after (x : HostAction) (s : State) : State :=
  match act x s with
  | .next t => t
  | .fault _ => s
  | .refused _ => s

/-- The state one command leaves. -/
def did (i : Instr) (s : State) : State := after (.command (encode i)) s

theorem built_sound (s : State) (hp : s.pt = builtPt) (hc : s.cpmt = builtCpmt builtPt) : TablesBuilt s := by
  intro b
  rw [hp, hc, ptAt_builtPt, cpmtAt_builtCpmt]
  exact ⟨rfl, maskLanes_congr ptAt_builtPt b⟩

/-! ### One step of each command (95_test_vectors section 2) -/

/-- V-TAB-1: an odd and an even byte, TB = 0. -/
theorem test_poppar :
    (did (.poppar 0xA7) State.reset).res = 0x01 ∧ (did (.poppar 0xFF) State.reset).res = 0x00 ∧
      status (did (.poppar 0xA7) State.reset) = 0x0000 := by decide

/-- V-TAB-2. -/
theorem test_cpmgen :
    (did (.cpmgen 0x13) State.reset).res = 0x52 ∧ (did (.cpmgen 0x80) State.reset).res = 0x70 ∧
      (did (.cpmgen 0x55) State.reset).res = 0x00 := by decide

/-- V-TAB-3: TBUILD with a quarter open keeps STATUS but for TB. -/
theorem test_tbuild :
    status (did .tbuild State.reset) = 0x0001 ∧ status (did .tbuild (opened 1 1)) = 0x0107 := by decide +kernel

/-- V-TAB-4. -/
theorem test_ptlkp : (did (.ptlkp 0x7F) built).res = 0x01 ∧ (did (.ptlkp 0x96) built).res = 0x00 := by decide +kernel

theorem test_ptlkp_unbuilt :
    status (did (.ptlkp 0x00) State.reset) = 0x0020 ∧ (did (.ptlkp 0x00) State.reset).resw = false := by decide

/-- V-TAB-5. -/
theorem test_cpmlkp :
    (did (.cpmlkp 0xA7) built).res = 0x16 ∧ (did (.cpmlkp 0x80) built).res = 0x70 ∧
      (did (.cpmlkp 0x3C) built).res = 0x00 := by decide +kernel

theorem test_cpmlkp_unbuilt : status (did (.cpmlkp 0xFF) State.reset) = 0x0020 := by decide

/-- V-ECC-1. -/
theorem test_qinit :
    status (did (.qinit 2) State.reset) = 0x000A ∧ status (did (.qinit 3) built) = 0x000F ∧
      (did (.qinit 2) State.reset).cp = 0x77 ∧ (did (.qinit 2) State.reset).lp0 = 0x7F ∧
      (did (.qinit 2) State.reset).lp1 = 0x7F := by decide

theorem test_qinit_busy : status (did (.qinit 1) { opened 0 0 with tb := false }) = 0x0042 := by decide +kernel

/-- V-ECC-2: byte 0x01 at offset 5, and under QUARTER_INDEX in quarter 2. -/
theorem test_qbyte :
    let t := did (.qbyte 0x01) (opened 0 5)
    let u := did (.qbyte 0x01) { opened 2 5 with cfg := { cpMode := .cumulative, lpIndex := .quarterIndex } }
    (t.cp, t.lp0, t.lp1, t.j) = (0x70, 0x85, 0x7A, 6) ∧ (u.cp, u.lp0, u.lp1, u.j) = (0x70, 0x82, 0x7D, 6) := by
  decide +kernel

/-- V-ECC-2, the fault corner cases. -/
theorem test_qbyte_faults :
    status (did (.qbyte 0) State.reset) = 0x0020 ∧ status (did (.qbyte 0) built) = 0x0031 ∧
      status (did (.qbyte 0) (opened 0 128)) = 0x8053 := by decide +kernel

/-- V-ECC-3: the accumulators of `QINIT 3`, 127 bytes 0x00, 0x80. -/
theorem test_qemit :
    let t := did .qemit { opened 3 128 with cp := 0x07, lp0 := 0xFF, lp1 := 0x00 }
    t.eccBuf = [(9, 0x07), (10, 0x7F), (11, 0x00)] ∧ t.lp0 = 0xFF ∧ status t = 0x800D := by decide +kernel

/-- V-ECC-3, the fault corner cases: QEMIT does not check TB. -/
theorem test_qemit_faults :
    status (did .qemit State.reset) = 0x0030 ∧ status (did .qemit (opened 0 127)) = 0x7F63 ∧
      status (did .qemit { opened 0 0 with tb := false }) = 0x0062 := by decide +kernel

/-- V-ECC-4. -/
theorem test_eclr :
    (did .eclr State.reset).eccBuf = (List.range 16).map (fun a => (a, 0)) ∧
      status (did .eclr (opened 1 1)) = 0x0107 := by decide +kernel

/-- A zero byte moves J alone, under CUMULATIVE (V-ECC-2, third row). -/
theorem zeros_run (n : Nat) : ∀ s : State, s.pt = builtPt → s.cpmt = builtCpmt builtPt → s.cfg.cpMode = .cumulative →
    (List.replicate n 0#8).foldl accumulate s = { s with j := s.j + BitVec.ofNat 8 n } := by
  induction n with
  | zero => intro s _ _ _; simp
  | succ n ih =>
    intro s hp hc hm
    have ht := built_sound s hp hc 0#8
    rw [show parity 0#8 = 0 from rfl, show columnParityMask 0#8 = 0 from rfl] at ht
    have h1 : accumulate s 0#8 = { s with j := s.j + 1 } := by simp [accumulate, hm, cpStep, ht.1, ht.2]
    have hj : s.j + 1 + BitVec.ofNat 8 n = s.j + BitVec.ofNat 8 (n + 1) := by
      rw [BitVec.add_assoc, Nat.add_comm n 1, BitVec.ofNat_add]; rfl
    rw [List.replicate_succ, List.foldl_cons, h1, ih { s with j := s.j + 1 } hp hc hm]
    simp only [hj]

/-- W4: quarter 0 of a page whose first quarter is zero except p[5] = 0x01, whatever follows it. -/
theorem test_epage_quarter (rest : List Byte) :
    (encodeQuarter (List.replicate 5 0#8 ++ [1] ++ List.replicate 122 0#8 ++ rest) paged 0).eccBuf =
      [(0, 0x70), (1, 0x05), (2, 0x7A)] := by
  have hq : ((List.replicate 5 0#8 ++ [1] ++ List.replicate 122 0#8 ++ rest).drop
      (quarterBytes * (0 : BitVec 2).toNat)).take quarterBytes =
        List.replicate 5 0#8 ++ [1] ++ List.replicate 122 0#8 := List.take_left' (by simp [quarterBytes])
  rw [encodeQuarter, hq, List.foldl_append, List.foldl_append, zeros_run 5, zeros_run 122]
  · decide +kernel
  all_goals rfl

/-- V-ECC-5, the fault corner cases; the last with no page write at all. -/
theorem test_epage_faults :
    status (did .epage { paged with tb := false }) = 0x0020 ∧ status (did .epage (opened 0 0)) = 0x0043 ∧
      status (did .epage built) = 0x0071 := by decide +kernel

/-- 30_encoding R75, 60_exceptions R173: an illegal word faults; in the faulted state it is discarded. -/
theorem test_illegal_word :
    status (after (.command 0x2400) State.reset) = 0x0010 ∧
      status (after (.command 0xB000) { State.reset with fault := .quarterBusy }) = 0x0040 := by decide

/-! ### Host actions (20_memory R51) -/

theorem test_page_write_and_read :
    (after (.pageRead 511) (after (.pageWrite 511 0xA5) State.reset)).answers = [.byte 0xA5] ∧
      (after (.pageWrite 0 1) { State.reset with fault := .quarterBusy }).pageBuf = [] := by decide

/-- 60_exceptions R176, V-ECC-4: a read of a byte nothing has written. -/
theorem test_unwritten_read :
    (after (.eccRead 12) State.reset).answers = [.noValue] ∧ status (after (.eccRead 12) State.reset) = 0x0080 ∧
      status (after .resultRead State.reset) = 0x0080 := by decide

theorem test_status_and_result_reads :
    (after .statusRead (did (.qinit 2) State.reset)).answers = [.word 0x000A] ∧
      (after .resultRead (did (.poppar 1) State.reset)).answers = [.byte 1] := by decide

/-- 70_reset R200: RESET clears FAULT, TB and the buffers. -/
theorem test_reset :
    after .reset { paged with fault := .quarterBusy, eccBuf := [(12, 0)] } = State.reset := rfl

/-- The word placed by `withFetchWord` is the very next command (log 15). -/
theorem test_withFetchWord : step (State.reset.withFetchWord 16 0x6200) = exec (.qinit 2) State.reset := rfl

/-- The page protocol of 60_exceptions R185: 512 writes, ECLR, EPAGE, 16 reads. -/
theorem test_pageProtocol_length :
    (pageProtocol (List.replicate 512 0) true).length = 530 ∧ (pageWrites [7, 8]) = [.pageWrite 0 7, .pageWrite 1 8] ∧
      inputAccepted [] = false := by decide +kernel

/-! ### Witnesses: states and operands that meet the hypotheses of each statement, clause by clause -/

/-- A faulted block in which RES and the edges of both buffers hold values, and the rest does not. -/
def stuck : State :=
  { State.reset with
    fault := .quarterBusy, resw := true, res := 0x5A, pageBuf := [(0, 1), (511, 2)], eccBuf := [(0, 3), (15, 4)] }

/-- `opened q n` under another configuration. -/
def openedAs (cfg : Config) (q : BitVec 2) (n : Byte) : State := { opened q n with cfg := cfg }

theorem zerosTo_run (n : Nat) : (zerosTo n).readRun 0 n = some (List.replicate n 0) := by
  unfold zerosTo
  rw [List.range_eq_range', Memory.readRun_const]

theorem zerosTo_read {n a : Nat} (ha : a < n) : (zerosTo n).read a = some 0 := by
  have h := Memory.readRun_getElem (zerosTo_run n) ha
  rwa [Nat.zero_add, List.getElem?_replicate, if_pos ha] at h

theorem zerosTo_wf (n : Nat) : Memory.wf n (zerosTo n) := by
  unfold zerosTo
  exact ⟨by rw [List.pairwise_map]; exact List.pairwise_lt_range, by simp⟩

theorem built_tables : TablesBuilt built := built_sound _ rfl rfl

/-- The witness of every statement about EPAGE in a state where it executes normally. -/
theorem test_hyps_EpageResult : EpageReady paged :=
  ⟨rfl, rfl, rfl, fun _ ha => by rw [show paged.pageBuf = zerosTo 512 from rfl, zerosTo_read ha]; rfl⟩

theorem test_hyps_EpageEqualsItsCommandSequence : EpageReady paged := test_hyps_EpageResult

theorem test_hyps_EncodeOfDecode : decode 0xA000#16 = .ok .epage ∧ decode 0x63_00#16 = .ok (.qinit 3) := by decide

theorem test_hyps_IllegalWordsFault :
    State.reset.fault = .noFault ∧ IsIllegal 0x0FFF#16 ∧ IsIllegal 0xB000#16 ∧ IsIllegal 0xFFFF#16 ∧
      IsIllegal 0xA001#16 ∧ ¬ IsIllegal 0xA000#16 :=
  ⟨rfl, ⟨_, rfl⟩, ⟨_, rfl⟩, ⟨_, rfl⟩, ⟨_, rfl⟩, fun ⟨_, h⟩ => by cases h⟩

theorem test_hyps_LegalWordsAre1288 :
    decode 0x6000#16 = .ok (.qinit 0) ∧ decode 0x6300#16 = .ok (.qinit 3) ∧
      opcField 0x6000#16 = opcField 0x6300#16 := by decide

theorem test_hyps_StepRunsPresentedCommand :
    { built with pending := [.command 0xA000, .statusRead] }.pending = .command 0xA000 :: [.statusRead] ∧
      decode 0xA000#16 = .ok .epage := ⟨rfl, rfl⟩

theorem test_hyps_EveryActionCompletesInOneStep :
    State.reset.pending = [] ∧ { stuck with pending := [.reset] }.pending = .reset :: [] := ⟨rfl, rfl⟩

theorem test_hyps_ReadsOfUnwrittenFault :
    State.reset.resw = false ∧ State.reset.pageBuf.read (511 : BitVec 9).toNat = none ∧
      State.reset.eccBuf.read (15 : BitVec 4).toNat = none ∧ stuck.pageBuf.read (510 : BitVec 9).toNat = none := by decide

theorem test_hyps_ReadsReturnTheValueHeld :
    stuck.resw = true ∧ stuck.pageBuf.read (511 : BitVec 9).toNat = some 2 ∧
      stuck.eccBuf.read (15 : BitVec 4).toNat = some 4 := by decide

theorem test_hyps_PageWriteStoresOneByte : built.fault = .noFault ∧ 0 ≠ (511 : BitVec 9).toNat := by decide

theorem test_hyps_StatusWordFields : CounterSound (opened 3 128) := by unfold CounterSound; decide

theorem test_hyps_FaultedStateDiscards :
    stuck.fault ≠ .noFault ∧ stuck.resw = true ∧ stuck.pageBuf.read (0 : BitVec 9).toNat = some 1 ∧
      stuck.eccBuf.read (0 : BitVec 4).toNat = some 3 ∧ { stuck with resw := false }.resw = false ∧
      stuck.pageBuf.read (1 : BitVec 9).toNat = none ∧ stuck.eccBuf.read (14 : BitVec 4).toNat = none ∧
      (∃ t, act .statusRead stuck = .next t) ∧ ∃ t, act .reset stuck = .next t :=
  ⟨by decide, by decide, by decide, by decide, rfl, by decide, by decide, ⟨_, rfl⟩, ⟨_, rfl⟩⟩

theorem test_hyps_FaultedBlockFrozenUntilReset :
    let s := { stuck with pending := [.command 0x1000, .statusRead, .reset] }
    s.fault ≠ .noFault ∧ (∀ x ∈ s.pending.take 2, x ≠ .reset) ∧
      ∃ t, Host.Core.run Sys2Proof.core 2 s = .next t :=
  ⟨by decide, by decide, ⟨_, rfl⟩⟩

theorem test_hyps_FaultEntryIsPrecise :
    State.reset.fault = .noFault ∧ ∃ t, presentWord 0x40FF State.reset = .next t ∧ t.fault ≠ .noFault :=
  ⟨rfl, _, rfl, by decide⟩

theorem test_hyps_DataValuesNeverFault :
    (∃ t t', exec (.ptlkp 0x00) built = .next t ∧ exec (.ptlkp 0xFF) built = .next t') ∧
      (∀ a < 512, (Memory.read [(511, 0xFF)] a).isSome = ({ built with pageBuf := [(511, 0)] }.pageBuf.read a).isSome) ∧
      (∃ t t', exec .epage { built with pageBuf := [(511, 0)] } = .next t ∧
        exec .epage { built with pageBuf := [(511, 0xFF)] } = .next t') :=
  ⟨⟨_, _, rfl, rfl⟩, fun a _ => by simp only [Memory.read]; split <;> rfl, ⟨_, _, rfl, rfl⟩⟩

theorem test_hyps_OnlyResetClearsTbAndFault :
    built.tb = true ∧ stuck.fault ≠ .noFault ∧ (∃ t, act (.command 0x1000) stuck = .next t) ∧
      ∃ t, act (.command 0x9000) built = .next t := ⟨rfl, by decide, ⟨_, rfl⟩, ⟨_, rfl⟩⟩

theorem test_hyps_MaskLaneFormulas : columnMasks[0]? = some 0x55 ∧ columnMasks[6]? = some 0xF0 := by decide

/-- PopparResult, TbuildLeavesThePrintedTables, EclrResult: the one hypothesis is that no fault is held; here with TB = 0
and TB = 1, with the quarter closed and open. -/
theorem test_hyps_noFault :
    State.reset.fault = .noFault ∧ built.fault = .noFault ∧ (opened 3 128).fault = .noFault := ⟨rfl, rfl, rfl⟩

theorem test_hyps_CpmgenResult :
    State.reset.fault = .noFault ∧ [0x55#8, 0x33, 0x0F, 0x00, 0xAA, 0xCC, 0xF0][6]? = some 0xF0 := by decide

theorem test_hyps_TbuildResult : State.reset.fault = .noFault ∧ columnMasks[6]? = some 0xF0 := by decide

theorem test_hyps_PtlkpResult :
    State.reset.fault = .noFault ∧ State.reset.tb = false ∧ built.fault = .noFault ∧ built.tb = true ∧
      TablesSound built ∧ ∃ t, exec (.ptlkp 0xFF) built = .next t :=
  ⟨rfl, rfl, rfl, rfl, fun _ => built_tables, ⟨_, rfl⟩⟩

theorem test_hyps_CpmlkpResult :
    State.reset.fault = .noFault ∧ State.reset.tb = false ∧ built.fault = .noFault ∧ built.tb = true ∧
      TablesSound built ∧ ∃ t, exec (.cpmlkp 0xFF) built = .next t :=
  ⟨rfl, rfl, rfl, rfl, fun _ => built_tables, ⟨_, rfl⟩⟩

theorem test_hyps_LookupLawsOnceBuilt :
    TablesSound built ∧ built.tb = true ∧ cpmtAt built.cpmt 0xFF = 0x00 :=
  ⟨fun _ => built_tables, rfl, by rw [(built_tables 0xFF).2]; decide⟩

theorem test_hyps_TablesWrittenByTbuildOnly :
    HostAction.command 0xA000 ≠ .command (encode .tbuild) ∧ HostAction.command 0xA000 ≠ .reset ∧
      ∃ t, act (.command 0xA000) paged = .next t := ⟨by decide, by decide, ⟨_, rfl⟩⟩

theorem test_hyps_QinitResult :
    (opened 3 128).fault = .noFault ∧ (opened 3 128).qopen = true ∧ State.reset.fault = .noFault ∧
      State.reset.qopen = false := ⟨rfl, rfl, rfl, rfl⟩

theorem test_hyps_QbyteResult :
    (State.reset.fault = .noFault ∧ State.reset.tb = false) ∧
      (built.fault = .noFault ∧ built.tb = true ∧ built.qopen = false) ∧
      ((opened 0 128).fault = .noFault ∧ (opened 0 128).tb = true ∧ (opened 0 128).qopen = true ∧ (opened 0 128).j = 128) ∧
      (opened 0 127).tb = true ∧ (opened 0 127).qopen = true ∧ (opened 0 127).j ≠ 128 := by
  refine ⟨⟨rfl, rfl⟩, ⟨rfl, rfl, rfl⟩, ⟨rfl, rfl, rfl, rfl⟩, rfl, rfl, by decide⟩

theorem test_hyps_QbyteCornerBytes :
    TablesSound (opened 0 127) ∧ (opened 0 127).tb = true ∧ ptAt (opened 0 127).pt 0xFF = 0 ∧
      cpmtAt (opened 0 127).cpmt 0xFF = 0 ∧ (opened 0 127).cfg.cpMode = .cumulative ∧
      ∃ t, exec (.qbyte 0xFF) (opened 0 127) = .next t ∧ t.fault = .noFault := by
  have ht : TablesBuilt (opened 0 127) := built_sound _ rfl rfl
  exact ⟨fun _ => ht, rfl, by rw [(ht 0xFF).1]; decide, by rw [(ht 0xFF).2]; decide, rfl, _, rfl, rfl⟩

theorem test_hyps_QemitResult :
    (State.reset.fault = .noFault ∧ State.reset.qopen = false) ∧
      ((opened 0 127).qopen = true ∧ (opened 0 127).j < 128) ∧ (opened 0 128).qopen = true ∧ 128 ≤ (opened 0 128).j := by
  refine ⟨⟨rfl, rfl⟩, ⟨rfl, by decide⟩, rfl, by decide⟩

theorem test_hyps_QuarterGroupClosedForm :
    QuarterReady built ∧ TablesBuilt built ∧ (List.replicate 128 0xFF#8).length = 128 ∧
      (0x01#8 :: List.replicate 127 0x00#8).length = 128 ∧
      (oddOffsets built.pt [0x01#8]).length % 2 = 1 ∧ (oddOffsets built.pt [0xFF#8]).length % 2 = 0 ∧
      { built with cfg := { cpMode := .shadowLast, lpIndex := .quarterIndex } }.cfg.lpIndex = .quarterIndex :=
  ⟨⟨rfl, rfl, rfl⟩, built_tables, List.length_replicate, by simp, by decide +kernel, by decide +kernel, rfl⟩

theorem test_hyps_GoldenGroupAndBlock :
    QuarterReady built ∧ TablesBuilt built ∧ (List.replicate 128 0xFF#8).length = 128 ∧
      built.cfg.cpMode ≠ .unconstrained ∧ (∀ b ∈ List.replicate 128 0xFF#8, cpmtAt built.cpmt b = 0x00) ∧
      EpageReady paged ∧ TablesBuilt paged ∧ ∀ a < 512, paged.pageBuf.read a = some 0x00 :=
  ⟨⟨rfl, rfl, rfl⟩, built_tables, List.length_replicate, by decide,
    fun b hb => by rw [List.eq_of_mem_replicate hb, (built_tables 0xFF#8).2]; decide, test_hyps_EpageResult,
    built_sound _ rfl rfl, fun _ ha => zerosTo_read ha⟩

theorem test_hyps_SingleBitLaw :
    3 < 4 ∧ 127 < 128 ∧ 7 < 8 ∧ EpageReady paged ∧ TablesBuilt paged ∧ paged.cfg.cpMode ≠ .unconstrained ∧
      paged.pageBuf.read (128 * 3 + 127) = some 0 ∧ (∀ c ∈ quarterOf paged 3, c = 0x00) ∧
      paged.cfg = Config.reference := by
  refine ⟨by decide, by decide, by decide, test_hyps_EpageResult, built_sound _ rfl rfl, by decide,
    zerosTo_read (by decide), fun c hc => ?_, rfl⟩
  obtain ⟨j, hj, rfl⟩ := List.mem_map.mp hc
  rw [show paged.pageBuf = zerosTo 512 from rfl, zerosTo_read (by have := List.mem_range.mp hj; omega)]
  rfl

/-- The other modes of the same statement: a configuration changes nothing in its other hypotheses. -/
theorem test_hyps_SingleBitLaw_modes (cfg : Config) :
    EpageReady { paged with cfg := cfg } ∧ TablesBuilt { paged with cfg := cfg } :=
  ⟨test_hyps_EpageResult, built_sound _ rfl rfl⟩

theorem test_hyps_GroupDependsOnItsQuarterOnly :
    let s' := { paged with cp := 0x12, lp0 := 0x34, lp1 := 0x56, j := 128, q := 3, eccBuf := [(0, 0x99)] }
    EpageReady paged ∧ EpageReady s' ∧ TablesBuilt paged ∧ TablesBuilt s' ∧ paged.cfg = s'.cfg ∧
      quarterOf paged 0 = quarterOf s' 0 ∧ quarterOf paged 3 = quarterOf s' 3 ∧ paged.cfg.cpMode ≠ .unconstrained :=
  ⟨test_hyps_EpageResult, test_hyps_EpageResult, built_sound _ rfl rfl, built_sound _ rfl rfl, rfl, rfl, rfl, by decide⟩

theorem test_hyps_EccTailWrittenByEclrOnly :
    HostAction.command 0xA000 ≠ .command (encode .eclr) ∧ HostAction.command 0xA000 ≠ .reset ∧
      ∃ t, act (.command 0xA000) paged = .next t := ⟨by decide, by decide, ⟨_, rfl⟩⟩

theorem test_hyps_RepeatedEpageAndTbuildAreSafe :
    EpageReady paged ∧ BuffersCanonical paged ∧ paged.cfg.cpMode ≠ .unconstrained ∧
      (∃ t, exec .epage paged = .next t) ∧ ∃ t, exec .tbuild (opened 1 1) = .next t :=
  ⟨test_hyps_EpageResult, ⟨zerosTo_wf _, Memory.wf_nil _⟩, by decide, ⟨_, rfl⟩, ⟨_, rfl⟩⟩

theorem test_hyps_QuarterTakesExactly128Bytes :
    QuarterReady built ∧ ([] : List Byte).length < 128 ∧ (List.replicate 127 0#8).length < 128 ∧
      (List.replicate 128 0#8).length = 128 :=
  ⟨⟨rfl, rfl, rfl⟩, by decide, by simp, List.length_replicate⟩

theorem test_hyps_FrameOfResultCommands :
    (∃ t, exec (.ptlkp 0xFF) built = .next t ∧ t.fault = built.fault) ∧
      ∃ t, exec (.ptlkp 0xFF) State.reset = .next t ∧ t.fault ≠ State.reset.fault :=
  ⟨⟨_, rfl, rfl⟩, _, rfl, by decide⟩

theorem test_hyps_FrameOfTableAndQuarterCommands :
    (∃ t, exec .tbuild State.reset = .next t ∧ t.tb = true) ∧
      (∃ t, exec (.qinit 3) built = .next t ∧ t.qopen = true) ∧
      ∃ t, exec (.qbyte 0xFF) (opened 3 127) = .next t ∧ t.j = 128 := ⟨⟨_, rfl, rfl⟩, ⟨_, rfl, rfl⟩, _, rfl, rfl⟩

theorem test_hyps_FrameOfStoringCommands :
    (∃ t, exec .qemit (opened 3 128) = .next t ∧ t.qopen = false) ∧
      (∃ t, exec .eclr State.reset = .next t ∧ t.fault = .noFault) ∧ ∃ t, exec .epage paged = .next t ∧ 12 ≤ 15 :=
  ⟨⟨_, rfl, rfl⟩, ⟨_, rfl, rfl⟩, _, rfl, by decide⟩

theorem test_hyps_OpenQuarterIsProtected :
    (opened 0 0).fault = .noFault ∧ (opened 0 0).qopen = true ∧ (opened 0 0).tb = true ∧
      ∃ t, exec (.cpmlkp 0xFF) (opened 3 127) = .next t := ⟨rfl, rfl, rfl, ⟨_, rfl⟩⟩

theorem test_hyps_PageBufferWrittenByHostOnly :
    (∀ a v, HostAction.command 0xA000 ≠ .pageWrite a v) ∧ HostAction.command 0xA000 ≠ .reset ∧
      ∃ t, act (.command 0xA000) paged = .next t := ⟨by simp, by simp, ⟨_, rfl⟩⟩

theorem test_hyps_ResultRegisterWrittenByFourCommandsOnly :
    let x := HostAction.command 0x70FF
    x ≠ .reset ∧
      (∀ d, x ≠ .command (encode (.poppar d)) ∧ x ≠ .command (encode (.cpmgen d)) ∧
        x ≠ .command (encode (.ptlkp d)) ∧ x ≠ .command (encode (.cpmlkp d))) ∧
      ∃ t, act x (opened 0 0) = .next t := ⟨by simp, by decide +kernel, ⟨_, rfl⟩⟩

theorem test_hyps_ConfigurationIsFixed :
    ∃ t, Host.Core.run Sys2Proof.core 2 { built with pending := [.command 0x1000, .reset] } = .next t := ⟨_, rfl⟩

/-- One byte of quarter 3 is still to come, and the host presents it: the witness of three of the invariants. -/
theorem test_hyps_StepKeepsInvariants :
    let s := { openedAs Config.reference 3 127 with pending := [.command 0x7001], eccBuf := [(0, 0x77), (15, 0)] }
    BuffersCanonical s ∧ TablesSound s ∧ CounterSound s ∧ AccumulatorsSound s ∧ ∃ t, step s = .next t := by
  refine ⟨⟨Memory.wf_nil _, ?_⟩, fun _ => built_sound _ rfl rfl, ?_, ?_, ⟨_, rfl⟩⟩
  · unfold Memory.wf; decide
  · unfold CounterSound; decide
  · unfold AccumulatorsSound; decide

/-- The last group of a block is about to be written. -/
theorem test_hyps_StepKeepsEccBufSound :
    let s := { opened 3 128 with pending := [.command 0x8000], eccBuf := [(0, 0x77), (1, 0x7F), (2, 0x7F), (15, 0)] }
    EccBufSound s ∧ AccumulatorsSound s ∧ TablesSound s ∧ ∃ t, step s = .next t := by
  refine ⟨?_, ?_, fun _ => built_sound _ rfl rfl, ⟨_, rfl⟩⟩
  · unfold EccBufSound; decide +kernel
  · unfold AccumulatorsSound; decide

theorem test_hyps_OutputImageLayout :
    let records := List.replicate 16384 (List.replicate 512 0x00#8, List.replicate 16 0x00#8)
    records.length = 16384 ∧ (∀ r ∈ records, r.1.length = 512 ∧ r.2.length = 16) ∧
      records[16383]? = some (List.replicate 512 0x00#8, List.replicate 16 0x00#8) := by
  refine ⟨List.length_replicate, fun r hr => ?_, ?_⟩
  · rw [List.eq_of_mem_replicate hr]; exact ⟨List.length_replicate, List.length_replicate⟩
  · rw [List.getElem?_replicate, if_pos (by decide)]

end Sys2Proof.Tests
end

/-! # The block's state: what each action leaves alone, and the invariants every step keeps

The layers, in order: the decoder as far as the step needs it; what one effect and one action of the host can do; steps
and runs; the three invariants, each for one effect and at reset; the fields of STATUS; the statements themselves. -/

namespace Sys2Proof

/-! ## The decoder and the encoder are inverse (30_encoding R71 to R75) -/

theorem decode_encode (i : Instr) : decode (encode i) = .ok i := by
  cases i <;> simp [encode, decode, decodeFN, decodeFD, decodeFQ]

theorem eq_packWord_of_opcField {w : Word} {k : Nat} (hk : (opcField w).toNat = k) (hr : rsvField w = 0) :
    w = packWord (BitVec.ofNat 4 k) (qfField w) (dField w) := by
  rw [← hk, BitVec.ofNat_toNat, BitVec.setWidth_eq, packWord_fields hr]

theorem encode_of_decodeFN {w : Word} {i j : Instr} {k : Nat} (hk : (opcField w).toNat = k)
    (hj : encode j = packWord (BitVec.ofNat 4 k) 0 0) (h : decodeFN w j = .ok i) : encode i = w := by
  unfold decodeFN at h
  split at h
  · next hz =>
    obtain ⟨hr, hq, hd⟩ := hz
    cases h
    rw [hj, eq_packWord_of_opcField hk hr, hq, hd]
  · cases h

theorem encode_of_decodeFD {w : Word} {i : Instr} {mk : Byte → Instr} {k : Nat} (hk : (opcField w).toNat = k)
    (hmk : ∀ d, encode (mk d) = packWord (BitVec.ofNat 4 k) 0 d) (h : decodeFD w mk = .ok i) : encode i = w := by
  unfold decodeFD at h
  split at h
  · next hz =>
    obtain ⟨hr, hq⟩ := hz
    cases h
    rw [hmk, ← hq, ← eq_packWord_of_opcField hk hr]
  · cases h

theorem encode_of_decodeFQ {w : Word} {i : Instr} {mk : BitVec 2 → Instr} {k : Nat} (hk : (opcField w).toNat = k)
    (hmk : ∀ q, encode (mk q) = packWord (BitVec.ofNat 4 k) q 0) (h : decodeFQ w mk = .ok i) : encode i = w := by
  unfold decodeFQ at h
  split at h
  · next hz =>
    obtain ⟨hr, hd⟩ := hz
    cases h
    rw [hmk, ← hd, ← eq_packWord_of_opcField hk hr]
  · cases h

/-- A word that decodes is the one encoding of its command. -/
theorem encode_of_decode {w : Word} {i : Instr} (h : decode w = .ok i) : encode i = w := by
  unfold decode at h
  split at h
  case h_1 | h_12 => cases h
  case h_2 | h_9 | h_10 | h_11 => next hk => exact encode_of_decodeFN hk rfl h
  case h_7 => next hk => exact encode_of_decodeFQ hk (fun _ => rfl) h
  all_goals next hk => exact encode_of_decodeFD hk (fun _ => rfl) h

end Sys2Proof

namespace Sys2Proof.Machine

open Sys2Proof Sys2Proof.Safety

variable {s t : State} {i : Instr} {x : HostAction}

/-! ## What a command's effect leaves alone -/

/-- The four commands that write RES (10_state R22). -/
def writesResult : Instr → Bool
  | .poppar _ | .cpmgen _ | .ptlkp _ | .cpmlkp _ => true
  | .tbuild | .qinit _ | .qbyte _ | .qemit | .eclr | .epage => false

/-- The four commands that work on the quarter's registers (41_ecc R131, R132, R136, R143). -/
def touchesQuarter : Instr → Bool
  | .qinit _ | .qbyte _ | .qemit | .epage => true
  | .tbuild | .poppar _ | .cpmgen _ | .ptlkp _ | .cpmlkp _ | .eclr => false

/-- What the effect of the command `i` leaves alone. -/
structure Frame (i : Instr) (s t : State) : Prop where
  fault : t.fault = s.fault
  pageBuf : t.pageBuf = s.pageBuf
  cfg : t.cfg = s.cfg
  pending : t.pending = s.pending
  answers : t.answers = s.answers
  tb_of_tb : s.tb = true → t.tb = true
  tables : i ≠ .tbuild → t.pt = s.pt ∧ t.cpmt = s.cpmt ∧ t.tb = s.tb
  result : writesResult i = false → t.res = s.res ∧ t.resw = s.resw
  accumulators : touchesQuarter i = false → t.cp = s.cp ∧ t.lp0 = s.lp0 ∧ t.lp1 = s.lp1
  counter : touchesQuarter i = false → t.j = s.j ∧ t.q = s.q ∧ t.qopen = s.qopen

theorem Effect.frame (h : Effect i s t) : Frame i s t := by
  cases i <;> simp only [Effect] at h
  case tbuild | poppar | cpmgen | eclr => subst h; constructor <;> simp [writesResult]
  case ptlkp | cpmlkp => obtain ⟨-, rfl⟩ := h; constructor <;> simp [writesResult]
  case qinit => obtain ⟨-, rfl⟩ := h; constructor <;> simp [touchesQuarter]
  case qbyte => obtain ⟨-, -, -, rfl⟩ := h; constructor <;> simp [touchesQuarter]
  case qemit => obtain ⟨-, -, rfl⟩ := h; constructor <;> simp [touchesQuarter]
  case epage => obtain ⟨-, -, page, -, rfl⟩ := h; constructor <;> simp [touchesQuarter]

/-- The four commands that write RES do nothing else. -/
theorem Effect.eq_writeRes (h : Effect i s t) (hi : writesResult i = true) : ∃ v, t = writeRes v s := by
  cases i
  case poppar | cpmgen => exact ⟨_, h⟩
  case ptlkp | cpmlkp => exact ⟨_, h.2⟩
  all_goals cases hi

/-! ## What one action of the host can do -/

/-- Nothing moves but FAULT, which a held fault does not, and the answers. -/
def OnlyFaultAndAnswers (s t : State) : Prop :=
  t = { s with fault := t.fault, answers := t.answers } ∧ (s.fault ≠ .noFault → t.fault = s.fault)

theorem onlyFaultAndAnswers_raise (c : FaultCode) (s : State) : OnlyFaultAndAnswers s (raise c s) := by
  rcases raise_cases c s with ⟨hf, e⟩ | ⟨-, e⟩ <;> rw [e]
  · exact ⟨rfl, fun h => absurd hf h⟩
  · exact ⟨rfl, fun _ => rfl⟩

theorem onlyFaultAndAnswers_answerByte (v : Option Byte) (s : State) : OnlyFaultAndAnswers s (answerByte v s) := by
  rcases answerByte_cases v s with ⟨b, -, e⟩ | ⟨-, e⟩ <;> rw [e]
  · exact ⟨rfl, fun _ => rfl⟩
  · obtain ⟨ht, hf⟩ := onlyFaultAndAnswers_raise .uninitialisedRead (answer .noValue s)
    exact ⟨ht, hf⟩

/-- Everything one action of the host can do: RESET, the effect of a command, a page write, or nothing but an answer
and a fault entry (a read, an illegal word, a command that fails a check, an action the faulted state discards). -/
inductive ActResult (x : HostAction) (s t : State) : Prop where
  | reset (hx : x = .reset) (ht : t = resetBlock s)
  | effect (i : Instr) (hx : x = .command (encode i)) (hf : s.fault = .noFault) (he : Effect i s t)
  | pageWrite (a : BitVec 9) (v : Byte) (hx : x = .pageWrite a v) (hf : s.fault = .noFault)
      (ht : t = { s with pageBuf := s.pageBuf.write a.toNat v })
  | quiet (h : OnlyFaultAndAnswers s t)

theorem act_result (h : act x s = .next t) : ActResult x s t := by
  cases x with
  | command w =>
    simp only [act, presentWord] at h
    split at h
    · next i hw =>
      rcases exec_cases h with ⟨-, rfl⟩ | ⟨hf, c, -, rfl⟩ | ⟨hf, he⟩
      · exact .quiet ⟨rfl, fun _ => rfl⟩
      · exact .quiet ⟨rfl, fun h => absurd hf h⟩
      · exact .effect i (by rw [encode_of_decode hw]) hf he
    · cases h; exact .quiet (onlyFaultAndAnswers_raise _ _)
  | pageWrite a v =>
    cases h
    rcases unlessFaulted_cases s { s with pageBuf := s.pageBuf.write a.toNat v } with ⟨hf, e⟩ | ⟨-, e⟩ <;> rw [e]
    · exact .pageWrite a v rfl hf rfl
    · exact .quiet ⟨rfl, fun _ => rfl⟩
  | pageRead a => cases h; exact .quiet (onlyFaultAndAnswers_answerByte _ _)
  | eccRead a => cases h; exact .quiet (onlyFaultAndAnswers_answerByte _ _)
  | resultRead => cases h; exact .quiet (onlyFaultAndAnswers_answerByte _ _)
  | statusRead => cases h; exact .quiet ⟨rfl, fun _ => rfl⟩
  | reset => cases h; exact .reset rfl rfl

/-! ## Steps and runs -/

/-- A step takes the host's oldest action. -/
theorem step_of_pending {rest : List HostAction} (h : s.pending = x :: rest) :
    step s = act x { s with pending := rest } := by
  simp only [step, nextAction, h]

/-- Presenting a word that decodes runs its command. -/
theorem act_command_of_decode {w : Word} (h : decode w = .ok i) : act (.command w) s = exec i s := by
  simp only [act, presentWord, h]

theorem exec_total (i : Instr) (s : State) : ∃ t, exec i s = .next t := by
  cases i <;> exact ⟨_, rfl⟩

theorem act_total (x : HostAction) (s : State) : ∃ t, act x s = .next t := by
  cases x
  case command w =>
    simp only [act, presentWord]
    split
    · exact exec_total _ s
    · exact ⟨_, rfl⟩
  all_goals exact ⟨_, rfl⟩

theorem step_total (s : State) : ∃ t, step s = .next t := by
  rcases step_cases s with ⟨-, e⟩ | ⟨x, rest, -, e⟩ <;> rw [e]
  · exact ⟨s, rfl⟩
  · exact act_total x _

/-- What every step keeps, a run of any length keeps. -/
theorem run_keeps {P : State → Prop} (hstep : ∀ s t, P s → step s = .next t → P t) {k : Nat} (hs : P s)
    (h : Host.Core.run Sys2Proof.core k s = .next t) : P t := by
  induction k generalizing s with
  | zero => cases h; exact hs
  | succ k ih =>
    obtain ⟨u, hu⟩ := step_total s
    rw [run_succ_of_step hu] at h
    exact ih (hstep s u hs hu) h

theorem act_keeps_cfg (h : act x s = .next t) : t.cfg = s.cfg := by
  cases act_result h with
  | reset _ ht => rw [ht, resetBlock_cfg]
  | effect i _ _ he => exact he.frame.cfg
  | pageWrite a v _ _ ht => rw [ht]
  | quiet hq => obtain ⟨ht, -⟩ := hq; rw [ht]

/-- `act_keeps` and `step_keeps` in one, for a property that speaks of neither the host's side, nor FAULT, nor
PAGEBUF. -/
theorem step_keeps_of_effect {P : State → Prop} (hqueue : ∀ s rest, P s → P { s with pending := rest })
    (hfault : ∀ s c, P s → P { s with fault := c }) (hanswer : ∀ s a, P s → P (answer a s))
    (hpage : ∀ s m, P s → P { s with pageBuf := m }) (hreset : ∀ s, P (resetBlock s))
    (heffect : ∀ i s t, Effect i s t → P s → P t) (hs : P s) (h : step s = .next t) : P t :=
  step_keeps hqueue
    (fun _ _ _ hs h => act_keeps hfault hanswer (fun s _ _ _ => hpage s _) (fun s _ => hreset s)
      (fun i s t _ => heffect i s t) hs h) hs h

/-! ## The tables (40_tables R107, R112) -/

/-- TBUILD leaves the tables built. -/
theorem Effect.tablesBuilt (h : Effect .tbuild s t) : TablesBuilt t := by
  have ht : t = { s with pt := builtPt, cpmt := builtCpmt builtPt, tb := true } := h
  intro b
  rw [ht]
  exact ⟨ptAt_builtPt b, (cpmtAt_builtCpmt _ b).trans (maskLanes_congr ptAt_builtPt b)⟩

theorem tablesBuilt_congr (h : TablesBuilt s) (hp : t.pt = s.pt) (hc : t.cpmt = s.cpmt) : TablesBuilt t := by
  intro b
  rw [hp, hc]
  exact h b

theorem Effect.tablesSound (h : Effect i s t) (hs : TablesSound s) : TablesSound t := by
  by_cases hi : i = .tbuild
  · subst hi; exact fun _ => h.tablesBuilt
  · obtain ⟨hp, hc, htb⟩ := h.frame.tables hi
    exact fun ht => tablesBuilt_congr (hs (htb ▸ ht)) hp hc

theorem tablesSound_resetBlock (s : State) : TablesSound (resetBlock s) := fun h => by cases h

/-! ## The byte counter (10_state R26) -/

theorem counterSound_congr (h : CounterSound s) (hj : t.j = s.j) (hq : t.qopen = s.qopen)
    (htb : s.tb = true → t.tb = true) : CounterSound t := by
  obtain ⟨hle, hclosed, hunbuilt⟩ := h
  refine ⟨hj ▸ hle, fun h => hj ▸ hclosed (hq ▸ h), fun h => hj ▸ hunbuilt ?_⟩
  cases hs : s.tb
  · rfl
  · rw [htb hs] at h; cases h

/-- QBYTE counts from below 128 only; QEMIT, at J = 128, and EPAGE, which ends there, leave the quarter closed. -/
theorem Effect.counterSound (h : Effect i s t) (hs : CounterSound s) : CounterSound t := by
  by_cases hi : touchesQuarter i = false
  · obtain ⟨hj, -, hq⟩ := h.frame.counter hi
    exact counterSound_congr hs hj hq h.frame.tb_of_tb
  · obtain ⟨hle, -, hunbuilt⟩ := hs
    cases i <;> simp only [Effect] at h
    case qinit => obtain ⟨-, rfl⟩ := h; exact ⟨by simp, fun _ => .inl rfl, fun _ => rfl⟩
    case qbyte =>
      obtain ⟨htb, hopen, hne, rfl⟩ := h
      have hj : s.j + 1 ≤ 128 := by bv_omega
      exact ⟨hj, by simp [hopen], by simp [htb]⟩
    case qemit =>
      obtain ⟨-, hge, rfl⟩ := h
      have hj : s.j = 128 := by bv_omega
      exact ⟨hle, fun _ => .inr hj, hunbuilt⟩
    case epage =>
      obtain ⟨htb, -, page, hpage, rfl⟩ := h
      have hj : (encodePage page s).j = 128 := encodePage_j page s (Memory.readRun_length hpage)
      exact ⟨by simp [hj], fun _ => .inr hj, by simp [htb]⟩
    all_goals exact absurd rfl hi

theorem counterSound_reset : CounterSound State.reset := ⟨by decide, fun _ => .inl rfl, fun _ => rfl⟩

theorem counterSound_resetBlock (s : State) : CounterSound (resetBlock s) :=
  counterSound_congr counterSound_reset rfl rfl id

/-! ## The accumulators (10_state R25, 41_ecc R137, R139) -/

/-- Lane 3 is the parity of `b & M[3]`, where M[3] is 0x00, and there is no lane 7 (40_tables R103). -/
theorem columnParityMask_getLsbD_three_seven (b : Byte) :
    (columnParityMask b).getLsbD 3 = false ∧ (columnParityMask b).getLsbD 7 = false := by
  have h0 : parity 0#8 = 0 := by decide
  constructor <;> simp [columnParityMask, maskLanes, columnMasks, h0]

theorem getLsbD_lineIndex_seven (ix : LpIndex) {j : Byte} (hj : j < 128) (q : BitVec 2) :
    (lineIndex ix j q).getLsbD 7 = false := by
  cases ix
  case byteOffset => exact Nat.testBit_lt_two_pow (show j.toNat < 2 ^ 7 by bv_omega)
  case quarterIndex => simp [lineIndex]

theorem getLsbD_cpStep (mode : CpMode) {cpmt : Vector Byte 256} {cp d : Byte} {k : Nat}
    (hm : (cpmtAt cpmt d).getLsbD k = false) (hs : cpSeed.getLsbD k = false) (hc : cp.getLsbD k = false) :
    (cpStep mode cpmt cp d).getLsbD k = false := by
  cases mode <;> simp [cpStep, hm, hs, hc]

/-- A byte of odd parity XORs an index and its complement into the pair, so that it swaps equal and complement. -/
theorem xor_complement_eq {a b x : Byte} (h : a ^^^ b = 0x00 ∨ a ^^^ b = 0xFF) :
    (a ^^^ ~~~x) ^^^ (b ^^^ x) = 0x00 ∨ (a ^^^ ~~~x) ^^^ (b ^^^ x) = 0xFF := by
  have e : (a ^^^ ~~~x) ^^^ (b ^^^ x) = ~~~(a ^^^ b) := by
    rw [← BitVec.not_xor_right, ← BitVec.not_xor_left, BitVec.xor_comm b, BitVec.xor_assoc, ← BitVec.xor_assoc x,
      BitVec.xor_self, BitVec.zero_xor]
  rw [e]
  exact h.symm.imp (fun h => by rw [h]; rfl) (fun h => by rw [h]; rfl)

theorem accumulatorsSound_congr (h : AccumulatorsSound s) (hcp : t.cp = s.cp) (h0 : t.lp0 = s.lp0)
    (h1 : t.lp1 = s.lp1) : AccumulatorsSound t := by
  unfold AccumulatorsSound
  rw [hcp, h0, h1]
  exact h

theorem accumulatorsSound_seedQuarter (q : BitVec 2) (s : State) : AccumulatorsSound (seedQuarter q s) := by
  simp [AccumulatorsSound, cpSeed, lpSeed]

theorem accumulatorsSound_accumulate (d : Byte) (ht : TablesBuilt s) (hj : s.j < 128) (hs : AccumulatorsSound s) :
    AccumulatorsSound (accumulate s d) := by
  obtain ⟨h1, hc3, hc7, hx⟩ := hs
  obtain ⟨hm3, hm7⟩ := columnParityMask_getLsbD_three_seven d
  rw [← (ht d).2] at hm3 hm7
  refine ⟨?_, getLsbD_cpStep _ hm3 (by decide) hc3, getLsbD_cpStep _ hm7 (by decide) hc7, ?_⟩
  · rw [accumulate_lp1]
    split
    · rw [BitVec.getLsbD_xor, h1, getLsbD_lineIndex_seven _ hj]; rfl
    · exact h1
  · rw [accumulate_lp0, accumulate_lp1]
    split
    · exact xor_complement_eq hx
    · exact hx

theorem accumulatorsSound_foldl_accumulate (bs : List Byte) (ht : TablesBuilt s) (hj : s.j.toNat + bs.length ≤ 128)
    (hs : AccumulatorsSound s) : AccumulatorsSound (bs.foldl accumulate s) := by
  induction bs generalizing s with
  | nil => exact hs
  | cons b bs ih =>
    rw [List.length_cons] at hj
    have hlt : s.j < 128 := by bv_omega
    refine ih ht ?_ (accumulatorsSound_accumulate b ht hlt hs)
    rw [accumulate_j]
    bv_omega

theorem accumulatorsSound_encodeQuarter (page : List Byte) (q : BitVec 2) (ht : TablesBuilt s) :
    AccumulatorsSound (encodeQuarter page s q) :=
  accumulatorsSound_foldl_accumulate (s := seedQuarter q s) _ ht (by simp [quarterBytes])
    (accumulatorsSound_seedQuarter q s)

theorem accumulatorsSound_encodePage (page : List Byte) (ht : TablesBuilt s) :
    AccumulatorsSound (encodePage page s) :=
  accumulatorsSound_encodeQuarter page 3 (tablesBuilt_congr ht (by simp) (by simp))

theorem Effect.accumulatorsSound (h : Effect i s t) (hs : AccumulatorsSound s) (hj : CounterSound s)
    (ht : TablesSound s) : AccumulatorsSound t := by
  by_cases hi : touchesQuarter i = false
  · obtain ⟨hcp, h0, h1⟩ := h.frame.accumulators hi
    exact accumulatorsSound_congr hs hcp h0 h1
  · cases i <;> simp only [Effect] at h
    case qinit q => obtain ⟨-, rfl⟩ := h; exact accumulatorsSound_seedQuarter q s
    case qbyte d =>
      obtain ⟨htb, -, hne, rfl⟩ := h
      obtain ⟨hle, -, -⟩ := hj
      have hlt : s.j < 128 := by bv_omega
      exact accumulatorsSound_accumulate d (ht htb) hlt hs
    case qemit => obtain ⟨-, -, rfl⟩ := h; exact accumulatorsSound_congr hs rfl rfl rfl
    case epage => obtain ⟨htb, -, page, -, rfl⟩ := h; exact accumulatorsSound_encodePage page (ht htb)
    all_goals exact absurd rfl hi

theorem accumulatorsSound_reset : AccumulatorsSound State.reset := by unfold AccumulatorsSound; decide

theorem accumulatorsSound_resetBlock (s : State) : AccumulatorsSound (resetBlock s) :=
  accumulatorsSound_congr accumulatorsSound_reset rfl rfl rfl

/-! ## STATUS (10_state R31) -/

theorem status_getLsbD_zero (s : State) : (status s).getLsbD 0 = s.tb := by
  simp only [status, BitVec.getLsbD_append, BitVec.getLsbD_ofBool]
  simp

theorem status_getLsbD_one (s : State) : (status s).getLsbD 1 = s.qopen := by
  simp only [status, BitVec.getLsbD_append, BitVec.getLsbD_ofBool]
  simp

theorem status_extractLsb'_q (s : State) : (status s).extractLsb' 2 2 = s.q :=
  (BitVec.extractLsb'_append_eq_of_le (by decide)).trans <|
    (BitVec.extractLsb'_append_eq_of_le (by decide)).trans BitVec.extractLsb'_append_eq_right

theorem status_extractLsb'_fault (s : State) : (status s).extractLsb' 4 4 = faultBits s.fault :=
  (BitVec.extractLsb'_append_eq_of_le (by decide)).trans <|
    (BitVec.extractLsb'_append_eq_of_le (by decide)).trans <|
    (BitVec.extractLsb'_append_eq_of_le (by decide)).trans BitVec.extractLsb'_append_eq_right

theorem status_extractLsb'_j (s : State) : (status s).extractLsb' 8 8 = s.j := by
  rw [status, BitVec.append_assoc, BitVec.append_assoc, BitVec.append_assoc]
  exact BitVec.extractLsb'_append_eq_left

theorem status_reset : status State.reset = 0x0000 := by decide

theorem faultBits_toNat_le (c : FaultCode) : (faultBits c).toNat ≤ 8 := by
  cases c <;> decide

end Sys2Proof.Machine

namespace Sys2Proof.Proofs

open Sys2Proof Sys2Proof.Machine Sys2Proof.Safety Sys2Proof.Claims

/-! ## The invariants -/

/-- Settles O55: TBUILD alone sets TB, and it fills the tables; every other effect leaves both. -/
theorem stepKeepsTablesSound : Obligations.StepKeepsTablesSound := fun _ _ hs h =>
  step_keeps_of_effect (fun _ _ h => h) (fun _ _ h => h) (fun _ _ h => h) (fun _ _ h => h) tablesSound_resetBlock
    (fun _ _ _ => Effect.tablesSound) hs h

/-- Settles O56: QBYTE counts from below 128 only, and QEMIT and EPAGE close a quarter at 128. -/
theorem stepKeepsCounterSound : Obligations.StepKeepsCounterSound := fun _ _ hs h =>
  step_keeps_of_effect (fun _ _ h => h) (fun _ _ h => h) (fun _ _ h => h) (fun _ _ h => h) counterSound_resetBlock
    (fun _ _ _ => Effect.counterSound) hs h

/-- Settles O57: the three invariants are kept together, since QBYTE needs the counter and the tables sound. -/
theorem stepKeepsAccumulatorsSound : Obligations.StepKeepsAccumulatorsSound := by
  intro s t hs hj ht h
  have hall : AccumulatorsSound t ∧ CounterSound t ∧ TablesSound t := by
    refine step_keeps_of_effect (P := fun s => AccumulatorsSound s ∧ CounterSound s ∧ TablesSound s)
      (fun _ _ h => h) (fun _ _ h => h) (fun _ _ h => h) (fun _ _ h => h) (fun s => ?_) ?_ ⟨hs, hj, ht⟩ h
    · exact ⟨accumulatorsSound_resetBlock s, counterSound_resetBlock s, tablesSound_resetBlock s⟩
    · rintro i s t he ⟨hs, hj, ht⟩
      exact ⟨he.accumulatorsSound hs hj ht, he.counterSound hj, he.tablesSound ht⟩
  exact hall.1

/-- Settles O53: the buffers are empty, and the registers are the zeros of `State.reset`. -/
theorem invariantsHoldAtReset : Obligations.InvariantsHoldAtReset := by
  have hnone : ∀ a v, State.reset.eccBuf.read a ≠ some v := fun a v h => by cases (Memory.read_nil a).symm.trans h
  refine ⟨⟨Memory.wf_nil _, Memory.wf_nil _⟩, tablesSound_resetBlock State.reset, counterSound_reset,
    accumulatorsSound_reset, fun k _ v => ?_, fun a _ _ v h => absurd h (hnone a v)⟩
  exact ⟨fun h => absurd h (hnone _ v), fun h => absurd h (hnone _ v), fun h => absurd h (hnone _ v)⟩

/-! ## Safety: who may change what -/

/-- Settles O20: a command has an effect in an unfaulted state only, and no effect clears TB. -/
theorem onlyResetClearsTbAndFault : Obligations.OnlyResetClearsTbAndFault := by
  intro x s t hx h
  cases act_result h with
  | reset hr => exact absurd hr hx
  | effect i _ hf he => exact ⟨he.frame.tb_of_tb, fun hn => absurd hf hn⟩
  | pageWrite a v _ _ ht => subst ht; exact ⟨id, fun _ => rfl⟩
  | quiet hq =>
    obtain ⟨ht, hf⟩ := hq
    exact ⟨fun h => by rw [ht]; exact h, hf⟩

/-- Settles O31: an effect that touches the tables is TBUILD's, and TBUILD has one word. -/
theorem tablesWrittenByTbuildOnly : Obligations.TablesWrittenByTbuildOnly := by
  intro x s t hx hr h
  cases act_result h with
  | reset h => exact absurd h hr
  | effect i hw _ he =>
    obtain ⟨hp, hc, -⟩ := he.frame.tables (by rintro rfl; exact hx hw)
    exact ⟨hp, hc⟩
  | pageWrite a v _ _ ht => subst ht; exact ⟨rfl, rfl⟩
  | quiet hq => obtain ⟨ht, -⟩ := hq; rw [ht]; exact ⟨rfl, rfl⟩

/-- Settles O46: a discarded or faulting command moves FAULT alone; the effect is one write of RES. -/
theorem frameOfResultCommands : Obligations.FrameOfResultCommands := by
  intro d i s t hi h
  have hw : writesResult i = true := by
    simp only [List.mem_cons, List.not_mem_nil, or_false] at hi
    rcases hi with rfl | rfl | rfl | rfl <;> rfl
  rcases exec_cases h with ⟨-, rfl⟩ | ⟨-, c, -, rfl⟩ | ⟨-, he⟩
  · exact ⟨rfl, fun _ => ⟨rfl, rfl⟩, fun _ => rfl, fun _ => rfl⟩
  · exact ⟨rfl, fun _ => ⟨rfl, rfl⟩, fun _ => rfl, fun _ => rfl⟩
  · obtain ⟨v, rfl⟩ := he.eq_writeRes hw
    exact ⟨rfl, fun hne => absurd rfl hne, fun _ => rfl, fun _ => rfl⟩

/-- Settles O50: no command's effect reaches PAGEBUF. -/
theorem pageBufferWrittenByHostOnly : Obligations.PageBufferWrittenByHostOnly := by
  intro x s t hx hr h
  cases act_result h with
  | reset h => exact absurd h hr
  | effect i _ _ he => exact he.frame.pageBuf
  | pageWrite a v h => exact absurd h (hx a v)
  | quiet hq => obtain ⟨ht, -⟩ := hq; rw [ht]

/-- Settles O51: the effect of a command that is none of the four leaves RES and RESW. -/
theorem resultRegisterWrittenByFourCommandsOnly : Obligations.ResultRegisterWrittenByFourCommandsOnly := by
  intro x s t hr hx h
  cases act_result h with
  | reset h => exact absurd h hr
  | effect i hw _ he =>
    refine he.frame.result ?_
    cases i with
    | poppar d => obtain ⟨hne, -, -, -⟩ := hx d; exact absurd hw hne
    | cpmgen d => obtain ⟨-, hne, -, -⟩ := hx d; exact absurd hw hne
    | ptlkp d => obtain ⟨-, -, hne, -⟩ := hx d; exact absurd hw hne
    | cpmlkp d => obtain ⟨-, -, -, hne⟩ := hx d; exact absurd hw hne
    | _ => rfl
  | pageWrite a v _ _ ht => subst ht; exact ⟨rfl, rfl⟩
  | quiet hq => obtain ⟨ht, -⟩ := hq; rw [ht]; exact ⟨rfl, rfl⟩

/-- Settles O52, by induction on the length of the run. -/
theorem configurationIsFixed : Obligations.ConfigurationIsFixed := fun _ s _ h =>
  run_keeps (P := fun u => u.cfg = s.cfg)
    (fun _ _ hu h => step_keeps (fun _ _ h => h) (fun _ _ _ hu h => (act_keeps_cfg h).trans hu) hu h) rfl h

/-! ## Single actions -/

/-- Settles O7: the oldest action is taken, and decoding undoes the encoding of a placed command. -/
theorem stepRunsPresentedCommand : Obligations.StepRunsPresentedCommand := by
  refine ⟨fun s w i rest hp hw => ?_, fun s i => ?_⟩
  · rw [step_of_pending hp, act_command_of_decode hw]
  · have hw : BitVec.ofNat 16 ((encode i).toNat % 2 ^ 16) = encode i := by
      rw [Nat.mod_eq_of_lt (encode i).isLt, BitVec.ofNat_toNat, BitVec.setWidth_eq]
    have hd : decode (BitVec.ofNat 16 ((encode i).toNat % 2 ^ 16)) = .ok i := by rw [hw, decode_encode]
    rw [step_of_pending (rest := s.pending) rfl, act_command_of_decode hd]
    rfl

/-- Settles O11: outside the faulted state a page write is one `Memory.write`. -/
theorem pageWriteStoresOneByte : Obligations.PageWriteStoresOneByte := by
  intro s a v hf
  refine ⟨{ s with pageBuf := s.pageBuf.write a.toNat v }, ?_, rfl, Memory.read_write_self _ _ _,
    fun b hb => Memory.read_write_of_ne hb⟩
  rw [pageWrite, unlessFaulted_of_noFault _ hf]

/-- Settles O12: STATUS is an append of its fields, and no fault code is above 8. -/
theorem statusWordFields : Obligations.StatusWordFields := by
  intro s
  refine ⟨status_getLsbD_zero s, status_getLsbD_one s, status_extractLsb'_q s, status_extractLsb'_fault s,
    status_extractLsb'_j s, ?_, ?_⟩
  · rw [status_extractLsb'_fault]
    exact faultBits_toNat_le s.fault
  · rintro ⟨hj, -, -⟩
    rw [status_extractLsb'_j]
    exact hj

/-- Settles O13: `resetBlock` takes every field of the block from `State.reset` and keeps the model's own four. -/
theorem resetRestoresTheBlock : Obligations.ResetRestoresTheBlock := fun s =>
  ⟨resetBlock s, rfl, rfl, rfl, rfl, rfl, rfl, rfl, fun _ => rfl, fun _ => rfl, status_reset, rfl, rfl, rfl, rfl⟩

/-- Settles O14: the fields of `State.reset`, whose buffers and queue are empty. -/
theorem resetStateValues : Obligations.ResetStateValues :=
  ⟨rfl, rfl, rfl, rfl, rfl, rfl, status_reset, fun _ => rfl, fun _ => rfl, rfl⟩

end Sys2Proof.Proofs

/-! # The block's memory: what each effect stores to ECCBUF, and the canonical form of both buffers

The layers, in order: the bytes of a word; where each effect stores; the canonical form of ECCBUF; the host's queue; the
statements themselves. -/

namespace Sys2Proof

/-! ## A word as two bytes (20_memory R55) -/

/-- Putting the two bytes of a word together gives the word. -/
theorem wordOfBytes_extractLsb' (w : Word) : wordOfBytes (w.extractLsb' 0 8) (w.extractLsb' 8 8) = w :=
  BitVec.extractLsb'_append_extractLsb' (w := 8) (len := 8)

theorem decodeBytes_bytesOfWord (w : Word) (rest : List Byte) :
    decodeBytes (bytesOfWord w ++ rest) = some (decode w, rest) := by
  simp only [bytesOfWord, List.cons_append, List.nil_append, decodeBytes, wordOfBytes_extractLsb']

end Sys2Proof

namespace Sys2Proof.Machine

open Sys2Proof Sys2Proof.Safety

variable {s t : State} {i : Instr} {x : HostAction}

/-! ## What a command's effect stores to ECCBUF (20_memory R53) -/

/-- Everything one effect can do to ECCBUF: nothing, or the group of QEMIT, the zeros of ECLR, the page of EPAGE. -/
inductive EccResult (i : Instr) (s t : State) : Prop where
  | same (h : t.eccBuf = s.eccBuf)
  | group (hi : i = .qemit) (h : t.eccBuf = (emitGroup s).eccBuf)
  | cleared (hi : i = .eclr) (h : t.eccBuf = s.eccBuf.clearTo eccBytes)
  | page (bytes : List Byte) (hi : i = .epage) (h : t.eccBuf = (encodePage bytes s).eccBuf)

theorem Effect.eccResult (h : Effect i s t) : EccResult i s t := by
  cases i <;> simp only [Effect] at h
  case tbuild | poppar | cpmgen => subst h; exact .same rfl
  case ptlkp | cpmlkp | qinit => obtain ⟨-, rfl⟩ := h; exact .same rfl
  case qbyte => obtain ⟨-, -, -, rfl⟩ := h; exact .same rfl
  case qemit => obtain ⟨-, -, rfl⟩ := h; exact .group rfl rfl
  case eclr => subst h; exact .cleared rfl rfl
  case epage => obtain ⟨-, -, bytes, -, rfl⟩ := h; exact .page bytes rfl rfl

/-- The ECCBUF addresses that the command `i` may store to. -/
def StoresAt (i : Instr) (s : State) (a : Nat) : Prop :=
  match i with
  | .qemit => groupBase s.q ≤ a ∧ a < groupBase s.q + 3
  | .eclr => a < 16
  | .epage => a < 12
  | .tbuild | .poppar _ | .cpmgen _ | .ptlkp _ | .cpmlkp _ | .qinit _ | .qbyte _ => False

/-- ECLR alone stores at 12 or above (41_ecc R145). -/
theorem not_storesAt_of_ne_eclr {a : Nat} (hi : i ≠ .eclr) (ha : 12 ≤ a) : ¬ StoresAt i s a := by
  cases i with
  | qemit => have := groupBase_lt s.q; rintro ⟨-, hlt⟩; omega
  | eclr => exact absurd rfl hi
  | epage => exact Nat.not_lt.mpr ha
  | _ => exact id

/-- A group is stored to its own three bytes. -/
theorem emitGroup_read_of_ne {a : Nat} (h : ¬ (groupBase s.q ≤ a ∧ a < groupBase s.q + 3)) :
    (emitGroup s).eccBuf.read a = s.eccBuf.read a := by
  rw [emitGroup_read, if_neg, if_neg, if_neg] <;> omega

/-- An effect changes no byte of ECCBUF outside the addresses its command stores to. -/
theorem Effect.eccBuf_read {a : Nat} (he : Effect i s t) (ha : ¬ StoresAt i s a) :
    t.eccBuf.read a = s.eccBuf.read a := by
  cases he.eccResult with
  | same h => rw [h]
  | group hi h => subst hi; rw [h, emitGroup_read_of_ne ha]
  | cleared hi h => subst hi; rw [h, Memory.read_clearTo]; exact if_neg ha
  | page bytes hi h => subst hi; rw [h, encodePage_read_of_le _ _ (Nat.not_lt.mp ha)]

theorem exec_eccBuf_read {a : Nat} (ha : ¬ StoresAt i s a) (h : exec i s = .next t) :
    t.eccBuf.read a = s.eccBuf.read a :=
  exec_keeps (P := fun u => u.eccBuf.read a = s.eccBuf.read a) (fun _ h => h) (fun _ he _ => he.eccBuf_read ha) rfl h

theorem exec_pageBuf (h : exec i s = .next t) : t.pageBuf = s.pageBuf :=
  exec_keeps (P := fun u => u.pageBuf = s.pageBuf) (fun _ h => h) (fun _ he _ => he.frame.pageBuf) rfl h

/-! ## What the storing commands leave alone beside ECCBUF (41_ecc R136, R142, R143) -/

theorem encodePage_frame (page : List Byte) (s : State) :
    encodePage page s = { s with
      eccBuf := (encodePage page s).eccBuf, q := (encodePage page s).q, cp := (encodePage page s).cp
      lp0 := (encodePage page s).lp0, lp1 := (encodePage page s).lp1, j := (encodePage page s).j
      draws := (encodePage page s).draws } := by
  apply State.ext <;> simp

theorem exec_qemit_frame (h : exec .qemit s = .next t) :
    t = { s with eccBuf := t.eccBuf, qopen := t.qopen, fault := t.fault, draws := t.draws } := by
  rcases exec_cases h with ⟨-, rfl⟩ | ⟨-, c, -, rfl⟩ | ⟨-, -, -, rfl⟩ <;> rfl

/-- ECLR has no check to fail but the faulted state's, so that not even FAULT moves. -/
theorem exec_eclr_frame (h : exec .eclr s = .next t) : t = { s with eccBuf := t.eccBuf } := by
  cases h
  rcases unlessFaulted_cases s { s with eccBuf := s.eccBuf.clearTo eccBytes } with ⟨-, e⟩ | ⟨-, e⟩ <;> rw [e]

theorem exec_epage_frame (h : exec .epage s = .next t) :
    t = { s with
      eccBuf := t.eccBuf, q := t.q, cp := t.cp, lp0 := t.lp0, lp1 := t.lp1, j := t.j
      fault := t.fault, draws := t.draws } := by
  rcases exec_cases h with ⟨-, rfl⟩ | ⟨-, c, -, rfl⟩ | ⟨-, -, -, page, -, rfl⟩
  · rfl
  · rfl
  · rw [encodePage_fault]; exact encodePage_frame page s

/-! ## The canonical form of ECCBUF (20_memory R50) -/

/-- The last byte of a group is at `groupBase s.q + 2`, below 12. -/
theorem wf_emitGroup (h : Memory.wf eccBytes s.eccBuf) : Memory.wf eccBytes (emitGroup s).eccBuf := by
  have hlt : groupBase s.q + 2 < eccBytes := (groupBase_lt s.q).trans (by decide)
  rw [emitGroup_eccBuf]
  exact Memory.wf_write (Memory.wf_write (Memory.wf_write h (by omega)) (by omega)) hlt

theorem wf_encodeQuarter (page : List Byte) (q : BitVec 2) (h : Memory.wf eccBytes s.eccBuf) :
    Memory.wf eccBytes (encodeQuarter page s q).eccBuf :=
  wf_emitGroup (by rwa [foldl_accumulate_eccBuf, seedQuarter_eccBuf])

theorem wf_encodePage (page : List Byte) (h : Memory.wf eccBytes s.eccBuf) :
    Memory.wf eccBytes (encodePage page s).eccBuf :=
  wf_encodeQuarter page 3 (wf_encodeQuarter page 2 (wf_encodeQuarter page 1 (wf_encodeQuarter page 0 h)))

theorem Effect.buffersCanonical (he : Effect i s t) (hs : BuffersCanonical s) : BuffersCanonical t := by
  obtain ⟨hpage, hecc⟩ := hs
  refine ⟨by rwa [he.frame.pageBuf], ?_⟩
  cases he.eccResult with
  | same h => rwa [h]
  | group _ h => rw [h]; exact wf_emitGroup hecc
  | cleared _ h => rw [h]; exact Memory.wf_clearTo hecc le_rfl
  | page bytes _ h => rw [h]; exact wf_encodePage bytes hecc

theorem buffersCanonical_resetBlock (s : State) : BuffersCanonical (resetBlock s) :=
  ⟨Memory.wf_nil _, Memory.wf_nil _⟩

theorem act_keeps_buffersCanonical (hs : BuffersCanonical s) (h : act x s = .next t) : BuffersCanonical t :=
  act_keeps (fun _ _ h => h) (fun _ _ h => h) (fun _ _ _ ha ⟨hpage, hecc⟩ => ⟨Memory.wf_write hpage ha, hecc⟩)
    (fun s _ => buffersCanonical_resetBlock s) (fun _ _ _ _ => Effect.buffersCanonical) hs h

/-! ## The host's queue (20_memory R60) -/

/-- No action touches the actions still to come. -/
theorem act_keeps_pending (h : act x s = .next t) : t.pending = s.pending :=
  act_keeps (P := fun u => u.pending = s.pending) (fun _ _ h => h) (fun _ _ h => h) (fun _ _ _ _ h => h)
    (fun _ h => h) (fun _ _ _ _ he h => he.frame.pending.trans h) rfl h

/-! ## A read of a location that holds a value (20_memory R51) -/

theorem answerByte_some (v : Byte) (s : State) :
    answerByte (some v) s = { s with answers := s.answers ++ [.byte v] } := rfl

end Sys2Proof.Machine

namespace Sys2Proof.Proofs

open Sys2Proof Sys2Proof.Machine Sys2Proof.Safety Sys2Proof.Claims

/-! ## The memory -/

/-- Settles O54: page addresses are below 512, groups below 12, and ECLR clears exactly the sixteen bytes. -/
theorem stepKeepsBuffersCanonical : Obligations.StepKeepsBuffersCanonical := fun _ _ hs h =>
  step_keeps (fun _ _ h => h) (fun _ _ _ => act_keeps_buffersCanonical) hs h

/-- Settles O8: `act` is total, and no action touches the queue. -/
theorem everyActionCompletesInOneStep : Obligations.EveryActionCompletesInOneStep := by
  refine ⟨fun s hp => ?_, fun s x rest hp => ?_⟩
  · rcases step_cases s with ⟨-, e⟩ | ⟨x, rest, hx, -⟩
    · exact e
    · rw [hp] at hx; cases hx
  · obtain ⟨t, ht⟩ := act_total x { s with pending := rest }
    exact ⟨t, (step_of_pending hp).trans ht, act_keeps_pending ht⟩

/-- Settles O43: of the effects only ECLR's stores at 12 or above, and ECLR has one word. -/
theorem eccTailWrittenByEclrOnly : Obligations.EccTailWrittenByEclrOnly := by
  intro x s t hx hr h a ha
  cases act_result h with
  | reset h => exact absurd h hr
  | effect i hw _ he => exact he.eccBuf_read (not_storesAt_of_ne_eclr (by rintro rfl; exact hx hw) ha)
  | pageWrite _ _ _ _ ht => rw [ht]
  | quiet hq => obtain ⟨ht, -⟩ := hq; rw [ht]

/-- Settles O48: the three frames, and the addresses each command stores to. -/
theorem frameOfStoringCommands : Obligations.FrameOfStoringCommands := fun _ _ =>
  ⟨fun h => ⟨exec_qemit_frame h, fun _ ha => exec_eccBuf_read (i := .qemit) ha h⟩,
    fun h => ⟨exec_eclr_frame h, fun _ ha => exec_eccBuf_read (i := .eclr) (Nat.not_lt.mpr ha) h⟩,
    fun h => ⟨exec_epage_frame h, fun _ ha => exec_eccBuf_read (i := .epage) (Nat.not_lt.mpr ha) h⟩,
    fun _ _ h _ => by rw [exec_pageBuf h]⟩

/-- Settles O6: `wordOfBytes` puts back together what `bytesOfWord` takes apart. -/
theorem commandWordIsLittleEndian : Obligations.CommandWordIsLittleEndian := fun w rest =>
  ⟨rfl, decodeBytes_bytesOfWord w rest⟩

/-- Settles O10: each read port answers the byte it finds, and SR answers STATUS. -/
theorem readsReturnTheValueHeld : Obligations.ReadsReturnTheValueHeld := by
  intro s
  refine ⟨fun h => ?_, fun a v h => ?_, fun a v h => ?_, rfl⟩
  · rw [resultRead, if_pos h, answerByte_some]
  · rw [pageRead, h, answerByte_some]
  · rw [eccRead, h, answerByte_some]

end Sys2Proof.Proofs

/-! # The command words: which are legal, and the one row of the opcode map that selects each

The layers, in order: words compared field by field; the rows of the opcode map and the words they select; legal words as
encodings; the legal words listed; the statements themselves. -/

namespace Sys2Proof

open Sys2Proof.Claims

variable {w v : Word} {k : BitVec 4} {r r' : OpcodeRow} {m : String}

/-! ## Words field by field (30_encoding R71) -/

theorem eq_iff_fields :
    w = v ↔ opcField w = opcField v ∧ rsvField w = rsvField v ∧ qfField w = qfField v ∧ dField w = dField v := by
  refine ⟨by rintro rfl; exact ⟨rfl, rfl, rfl, rfl⟩, fun ⟨ho, hr, hq, hd⟩ => ?_⟩
  rw [← fields_append w, ho, hr, hq, hd, fields_append]

theorem opcField_and (w v : Word) : opcField (w &&& v) = opcField w &&& opcField v := BitVec.extractLsb'_and

theorem rsvField_and (w v : Word) : rsvField (w &&& v) = rsvField w &&& rsvField v := BitVec.extractLsb'_and

theorem qfField_and (w v : Word) : qfField (w &&& v) = qfField w &&& qfField v := BitVec.extractLsb'_and

theorem dField_and (w v : Word) : dField (w &&& v) = dField w &&& dField v := BitVec.extractLsb'_and

/-- The mask 0xF000 keeps OPC and nothing else. -/
theorem and_opcMask_eq_iff : w &&& 0xF000 = v &&& 0xF000 ↔ opcField w = opcField v := by
  have ho : opcField (0xF000 : Word) = BitVec.allOnes 4 := rfl
  have hr : rsvField (0xF000 : Word) = 0 := rfl
  have hq : qfField (0xF000 : Word) = 0 := rfl
  have hd : dField (0xF000 : Word) = 0 := rfl
  simp only [eq_iff_fields, opcField_and, rsvField_and, qfField_and, dField_and, ho, hr, hq, hd, BitVec.and_allOnes]
  simp

/-- OPC and the twelve bits below it are the whole word. -/
theorem eq_iff_and_masks : w = v ↔ w &&& 0xF000 = v &&& 0xF000 ∧ w &&& 0x0FFF = v &&& 0x0FFF := by
  have split (u : Word) : (u &&& 0xF000) ||| (u &&& 0x0FFF) = u := by
    rw [← BitVec.and_or_distrib_left]
    exact BitVec.and_allOnes
  refine ⟨by rintro rfl; exact ⟨rfl, rfl⟩, fun ⟨ho, hz⟩ => ?_⟩
  rw [← split w, ho, hz, split]

/-! ## The rows of the opcode map (30_encoding R74) -/

/-- Every row's mask covers OPC, and its pattern has no bit below OPC. -/
theorem row_mask_pattern : ∀ r ∈ opcodeMap, r.mask &&& 0xF000 = 0xF000 ∧ r.pattern &&& 0x0FFF = 0 := by decide

/-- No two rows have the same OPC. -/
theorem row_eq_of_opcField :
    ∀ r ∈ opcodeMap, ∀ r' ∈ opcodeMap, opcField r.pattern = opcField r'.pattern → r = r' := by decide

/-- Rows exist for OPC 1 to 10. -/
theorem exists_row_opcField_iff (o : BitVec 4) :
    (∃ r ∈ opcodeMap, o = opcField r.pattern) ↔ o ≠ 0 ∧ o.toNat < 0xB := by
  revert o; decide

/-- A row selects the words of its OPC that have no must-be-zero bit set. -/
theorem selects_iff (hr : r ∈ opcodeMap) :
    r.selects w = true ↔ opcField w = opcField r.pattern ∧ w &&& r.mask &&& 0x0FFF = 0 := by
  obtain ⟨hm, hp⟩ := row_mask_pattern r hr
  rw [OpcodeRow.selects, beq_iff_eq, eq_iff_and_masks, BitVec.and_assoc w r.mask 0xF000, hm, hp, and_opcMask_eq_iff]

theorem row_eq_of_selects (hr : r ∈ opcodeMap) (hr' : r' ∈ opcodeMap) (h : r.selects w = true)
    (h' : r'.selects w = true) : r = r' :=
  row_eq_of_opcField r hr r' hr' (((selects_iff hr).mp h).1.symm.trans ((selects_iff hr').mp h').1)

/-- The row with a command's mnemonic selects the command's word. -/
theorem exists_row_selects_encode (i : Instr) :
    ∃ r ∈ opcodeMap, r.mnemonic = i.mnemonic ∧ r.selects (encode i) = true := by
  have h : Laws.EncodedByItsRow.Statement i := by
    cases i
    case tbuild => exact Laws.EncodedByItsRow.tbuild
    case poppar d => exact Laws.EncodedByItsRow.poppar d
    case cpmgen d => exact Laws.EncodedByItsRow.cpmgen d
    case ptlkp d => exact Laws.EncodedByItsRow.ptlkp d
    case cpmlkp d => exact Laws.EncodedByItsRow.cpmlkp d
    case qinit q => exact Laws.EncodedByItsRow.qinit q
    case qbyte d => exact Laws.EncodedByItsRow.qbyte d
    case qemit => exact Laws.EncodedByItsRow.qemit
    case eclr => exact Laws.EncodedByItsRow.eclr
    case epage => exact Laws.EncodedByItsRow.epage
  have hmem : true ∈ (opcodeMap.filter fun r => r.mnemonic == i.mnemonic).map (·.selects (encode i)) :=
    h.symm ▸ List.mem_singleton_self true
  obtain ⟨r, hr, hs⟩ := List.mem_map.mp hmem
  obtain ⟨hr, hi⟩ := List.mem_filter.mp hr
  exact ⟨r, hr, eq_of_beq hi, hs⟩

/-- Format FN: the row selects its pattern alone. -/
theorem eq_of_selects_FN (h : OpcodeRow.selects ⟨m, packWord k 0 0, 0xFFFF⟩ w = true) : packWord k 0 0 = w :=
  (eq_of_beq h).symm.trans BitVec.and_allOnes

/-- Format FD: the row leaves D free. -/
theorem eq_of_selects_FD (h : OpcodeRow.selects ⟨m, packWord k 0 0, 0xFF00⟩ w = true) :
    packWord k 0 (dField w) = w := by
  obtain ⟨ho, hr, hq, -⟩ := eq_iff_fields.mp (eq_of_beq h)
  rw [opcField_and, show opcField (0xFF00 : Word) = BitVec.allOnes 4 from rfl, BitVec.and_allOnes] at ho
  rw [rsvField_and, show rsvField (0xFF00 : Word) = BitVec.allOnes 2 from rfl, BitVec.and_allOnes] at hr
  rw [qfField_and, show qfField (0xFF00 : Word) = BitVec.allOnes 2 from rfl, BitVec.and_allOnes] at hq
  simp [eq_iff_fields, ho, hr, hq]

/-- Format FQ: the row leaves QF free. -/
theorem eq_of_selects_FQ (h : OpcodeRow.selects ⟨m, packWord k 0 0, 0xFCFF⟩ w = true) :
    packWord k (qfField w) 0 = w := by
  obtain ⟨ho, hr, -, hd⟩ := eq_iff_fields.mp (eq_of_beq h)
  rw [opcField_and, show opcField (0xFCFF : Word) = BitVec.allOnes 4 from rfl, BitVec.and_allOnes] at ho
  rw [rsvField_and, show rsvField (0xFCFF : Word) = BitVec.allOnes 2 from rfl, BitVec.and_allOnes] at hr
  rw [dField_and, show dField (0xFCFF : Word) = BitVec.allOnes 8 from rfl, BitVec.and_allOnes] at hd
  simp [eq_iff_fields, ho, hr, hd]

/-- Every word a row selects encodes a command. -/
theorem exists_encode_of_selects (hr : r ∈ opcodeMap) (h : r.selects w = true) : ∃ i, encode i = w := by
  simp only [opcodeMap, List.mem_cons, List.not_mem_nil, or_false] at hr
  obtain rfl | rfl | rfl | rfl | rfl | rfl | rfl | rfl | rfl | rfl := hr
  · exact ⟨.tbuild, eq_of_selects_FN h⟩
  · exact ⟨.poppar (dField w), eq_of_selects_FD h⟩
  · exact ⟨.cpmgen (dField w), eq_of_selects_FD h⟩
  · exact ⟨.ptlkp (dField w), eq_of_selects_FD h⟩
  · exact ⟨.cpmlkp (dField w), eq_of_selects_FD h⟩
  · exact ⟨.qinit (qfField w), eq_of_selects_FQ h⟩
  · exact ⟨.qbyte (dField w), eq_of_selects_FD h⟩
  · exact ⟨.qemit, eq_of_selects_FN h⟩
  · exact ⟨.eclr, eq_of_selects_FN h⟩
  · exact ⟨.epage, eq_of_selects_FN h⟩

/-! ## Legal words (30_encoding R75) -/

/-- The legal words are the encodings of the commands. -/
theorem not_isIllegal_iff_exists_encode : ¬ IsIllegal w ↔ ∃ i, encode i = w := by
  constructor
  · intro h
    cases hw : decode w with
    | ok i => exact ⟨i, encode_of_decode hw⟩
    | error e => exact absurd ⟨e, hw⟩ h
  · rintro ⟨i, rfl⟩ ⟨e, he⟩
    rw [decode_encode] at he
    cases he

/-- The legal words are those some row selects. -/
theorem not_isIllegal_iff_exists_row : ¬ IsIllegal w ↔ ∃ r ∈ opcodeMap, r.selects w = true := by
  rw [not_isIllegal_iff_exists_encode]
  constructor
  · rintro ⟨i, rfl⟩
    obtain ⟨r, hr, -, hs⟩ := exists_row_selects_encode i
    exact ⟨r, hr, hs⟩
  · rintro ⟨r, hr, hs⟩
    exact exists_encode_of_selects hr hs

theorem isIllegal_iff_no_row : IsIllegal w ↔ ∀ r ∈ opcodeMap, ¬ r.selects w = true := by
  rw [← not_iff_not, not_isIllegal_iff_exists_row]
  simp only [not_forall, not_not, exists_prop]

/-- A word is illegal when no row has its OPC, or the row that has it finds a must-be-zero bit set. -/
theorem isIllegal_iff_opcField_or_mustBeZero :
    IsIllegal w ↔ opcField w = 0 ∨ 0xB ≤ (opcField w).toNat ∨
      ∃ r ∈ opcodeMap, opcField w = opcField r.pattern ∧ w &&& r.mask &&& 0x0FFF ≠ 0 := by
  rw [isIllegal_iff_no_row]
  constructor
  · intro hno
    by_cases ho : ∃ r ∈ opcodeMap, opcField w = opcField r.pattern
    · obtain ⟨r, hr, ho⟩ := ho
      exact .inr (.inr ⟨r, hr, ho, fun hz => hno r hr ((selects_iff hr).mpr ⟨ho, hz⟩)⟩)
    · rw [exists_row_opcField_iff, not_and_or, not_not, not_lt] at ho
      exact ho.imp_right .inl
  · intro h r hr hs
    obtain ⟨ho, hz⟩ := (selects_iff hr).mp hs
    obtain ⟨h0, hB⟩ := (exists_row_opcField_iff _).mp ⟨r, hr, ho⟩
    obtain h | h | ⟨r', hr', ho', hz'⟩ := h
    · exact h0 h
    · exact absurd hB (Nat.not_lt.mpr h)
    · obtain rfl := row_eq_of_opcField r hr r' hr' (ho.symm.trans ho')
      exact hz' hz

/-- Where one row selects the word, it is the only one. -/
theorem length_filter_selects (hr : r ∈ opcodeMap) (h : r.selects w = true) :
    (opcodeMap.filter (·.selects w)).length = 1 := by
  have hone : opcodeMap.filter (·.selects w) = opcodeMap.filter (· == r) :=
    List.filter_congr fun r' hr' => Bool.eq_iff_iff.mpr
      ⟨fun h' => beq_iff_eq.mpr (row_eq_of_selects hr' hr h' h), fun h' => eq_of_beq h' ▸ h⟩
  rw [hone, ← List.count_eq_length_filter]
  exact List.count_eq_one_of_mem (by decide) hr

/-- OPC alone gives the mnemonic. -/
theorem mnemonic_eq_of_opcField_encode {i i' : Instr} (h : opcField (encode i) = opcField (encode i')) :
    i.mnemonic = i'.mnemonic := by
  obtain ⟨r, hr, hm, hs⟩ := exists_row_selects_encode i
  obtain ⟨r', hr', hm', hs'⟩ := exists_row_selects_encode i'
  obtain ⟨ho, -⟩ := (selects_iff hr).mp hs
  obtain ⟨ho', -⟩ := (selects_iff hr').mp hs'
  rw [← hm, ← hm', row_eq_of_opcField r hr r' hr' (ho.symm.trans (h.trans ho'))]

/-! ## The legal words listed (30_encoding R76) -/

/-- The words of the commands with no operand. -/
def fnWords : List Word := [0x1000, 0x8000, 0x9000, 0xA000]

/-- The words of QINIT. -/
def fqWords : List Word := [0x6000, 0x6100, 0x6200, 0x6300]

/-- The high bytes of the commands with a data byte. -/
def fdHighBytes : List Byte := [0x20, 0x30, 0x40, 0x50, 0x70]

/-- The words of the commands with a data byte. -/
def fdWords : List Word := (fdHighBytes ×ˢ FinEnum.toList Byte).map fun b => wordOfBytes b.2 b.1

def legalWords : List Word := fnWords ++ fqWords ++ fdWords

theorem extractLsb'_high_wordOfBytes (lo hi : Byte) : (wordOfBytes lo hi).extractLsb' 8 8 = hi :=
  BitVec.extractLsb'_append_eq_left

theorem extractLsb'_low_wordOfBytes (lo hi : Byte) : (wordOfBytes lo hi).extractLsb' 0 8 = lo :=
  BitVec.extractLsb'_append_eq_right

theorem mem_fdWords : w ∈ fdWords ↔ w.extractLsb' 8 8 ∈ fdHighBytes := by
  simp only [fdWords, List.mem_map, Prod.exists, List.mem_product, FinEnum.mem_toList, and_true]
  constructor
  · rintro ⟨hi, lo, hhi, rfl⟩
    rwa [extractLsb'_high_wordOfBytes]
  · exact fun h => ⟨_, _, h, wordOfBytes_extractLsb' w⟩

theorem mem_fdHighBytes_iff_div :
    w.extractLsb' 8 8 ∈ fdHighBytes ↔ ∃ n ∈ [0x20, 0x30, 0x40, 0x50, 0x70], w.toNat / 256 = n := by
  have hlt : w.toNat / 256 < 256 := Nat.div_lt_of_lt_mul w.isLt
  have hdiv : (w.extractLsb' 8 8).toNat = w.toNat / 256 := by
    rw [BitVec.extractLsb'_toNat, Nat.shiftRight_eq_div_pow, Nat.mod_eq_of_lt hlt]
  simp [fdHighBytes, ← BitVec.toNat_inj, hdiv]

theorem encode_mem_legalWords (i : Instr) : encode i ∈ legalWords := by
  have fd {d hi : Byte} (h : hi ∈ fdHighBytes) : wordOfBytes d hi ∈ legalWords :=
    List.mem_append_right _ (mem_fdWords.mpr ((extractLsb'_high_wordOfBytes d hi).symm ▸ h))
  cases i
  case tbuild | qemit | eclr | epage => exact List.mem_append_left _ (by decide)
  case qinit q => exact List.mem_append_left _ (by revert q; decide)
  all_goals exact fd (by decide)

theorem exists_encode_of_mem_legalWords (h : w ∈ legalWords) : ∃ i, encode i = w := by
  simp only [legalWords, fnWords, fqWords, List.mem_append, mem_fdWords, List.mem_cons, List.not_mem_nil, or_false] at h
  obtain ((rfl | rfl | rfl | rfl) | (rfl | rfl | rfl | rfl)) | h := h
  · exact ⟨.tbuild, rfl⟩
  · exact ⟨.qemit, rfl⟩
  · exact ⟨.eclr, rfl⟩
  · exact ⟨.epage, rfl⟩
  · exact ⟨.qinit 0, rfl⟩
  · exact ⟨.qinit 1, rfl⟩
  · exact ⟨.qinit 2, rfl⟩
  · exact ⟨.qinit 3, rfl⟩
  · rw [← wordOfBytes_extractLsb' w]
    simp only [fdHighBytes, List.mem_cons, List.not_mem_nil, or_false] at h
    obtain h | h | h | h | h := h <;> rw [h]
    · exact ⟨.poppar _, rfl⟩
    · exact ⟨.cpmgen _, rfl⟩
    · exact ⟨.ptlkp _, rfl⟩
    · exact ⟨.cpmlkp _, rfl⟩
    · exact ⟨.qbyte _, rfl⟩

theorem mem_legalWords_iff : w ∈ legalWords ↔ ¬ IsIllegal w := by
  rw [not_isIllegal_iff_exists_encode]
  exact ⟨exists_encode_of_mem_legalWords, by rintro ⟨i, rfl⟩; exact encode_mem_legalWords i⟩

theorem nodup_fdWords : fdWords.Nodup := by
  refine List.Nodup.map (fun b b' h => Prod.ext ?_ ?_) (List.Nodup.product (by decide) FinEnum.nodup_toList)
  · simpa only [extractLsb'_high_wordOfBytes] using congrArg (·.extractLsb' 8 8) h
  · simpa only [extractLsb'_low_wordOfBytes] using congrArg (·.extractLsb' 0 8) h

theorem nodup_legalWords : legalWords.Nodup := by
  have hfew : ∀ w ∈ fnWords ++ fqWords, w.extractLsb' 8 8 ∉ fdHighBytes := by
    simp [fnWords, fqWords, fdHighBytes]
  have hdisjoint : List.Disjoint (fnWords ++ fqWords) fdWords := fun w hw hfd => hfew w hw (mem_fdWords.mp hfd)
  have hnodup : (fnWords ++ fqWords).Nodup := by decide
  exact hnodup.append nodup_fdWords hdisjoint

theorem length_legalWords : legalWords.length = 1288 := by
  have hbytes : (FinEnum.toList Byte).length = 256 := by simp [FinEnum.toList]
  simp [legalWords, fnWords, fqWords, fdWords, fdHighBytes, hbytes]

end Sys2Proof

namespace Sys2Proof.Proofs

open Sys2Proof Sys2Proof.Machine Sys2Proof.Safety Sys2Proof.Claims

/-! ## The encoding -/

/-- Settles O1: decoding reads the packed fields back, and the row with the command's mnemonic selects its word. -/
theorem decodeOfEncode : Obligations.DecodeOfEncode := fun i => by
  obtain ⟨r, hr, -, hs⟩ := exists_row_selects_encode i
  exact ⟨decode_encode i, List.any_eq_true.mpr ⟨r, hr, hs⟩⟩

/-- Settles O2: each format accepts only words that its fields pack back to. -/
theorem encodeOfDecode : Obligations.EncodeOfDecode := fun _ _ h => encode_of_decode h

/-- Settles O3: a legal word is one some row selects, and rows differ in OPC. -/
theorem illegalWordsFault : Obligations.IllegalWordsFault := by
  intro w
  refine ⟨?_, fun s hf ⟨e, he⟩ => ?_, fun h => ?_, fun h => ?_⟩
  · simp only [and_opcMask_eq_iff]
    exact isIllegal_iff_opcField_or_mustBeZero
  · rw [← raise_of_noFault _ hf]
    simp only [presentWord, he]
  · rw [List.length_eq_zero_iff, List.filter_eq_nil_iff]
    exact isIllegal_iff_no_row.mp h
  · obtain ⟨r, hr, hs⟩ := not_isIllegal_iff_exists_row.mp h
    exact length_filter_selects hr hs

/-- Settles O4: `legalWords` lists the encodings, and its parts are the three lists of R76. -/
theorem legalWordsAre1288 : Obligations.LegalWordsAre1288 := by
  refine ⟨fun w => ?_, ⟨legalWords, nodup_legalWords, length_legalWords, fun w => mem_legalWords_iff⟩,
    fun w w' i i' hw hw' ho => ?_⟩
  · rw [← mem_legalWords_iff, ← mem_fdHighBytes_iff_div, ← mem_fdWords, legalWords, List.mem_append, List.mem_append,
      or_assoc, or_comm (a := w ∈ fqWords)]
    rfl
  · rw [← encode_of_decode hw, ← encode_of_decode hw'] at ho
    exact mnemonic_eq_of_opcField_encode ho

/-- Settles O5: the decoder on the ten words, and why each of the other twelve is refused. -/
theorem sampleWordsDecode : Obligations.SampleWordsDecode := by
  refine ⟨rfl, rfl, rfl, rfl, rfl, rfl, rfl, rfl, rfl, rfl, ?_⟩
  simp only [List.forall_mem_cons]
  exact ⟨⟨.opcodeZero, rfl⟩, ⟨.opcodeUnassigned, rfl⟩, ⟨.opcodeUnassigned, rfl⟩, ⟨.mustBeZeroSet, rfl⟩,
    ⟨.mustBeZeroSet, rfl⟩, ⟨.mustBeZeroSet, rfl⟩, ⟨.mustBeZeroSet, rfl⟩, ⟨.mustBeZeroSet, rfl⟩, ⟨.mustBeZeroSet, rfl⟩,
    ⟨.mustBeZeroSet, rfl⟩, ⟨.mustBeZeroSet, rfl⟩, ⟨.mustBeZeroSet, rfl⟩, nofun⟩

end Sys2Proof.Proofs

/-! # The fold unit, the generator and the lookup tables

The layers, in order: the parity of a byte; the lanes of the mask; the printed tables; the word of a command from its
fields; what a command does under its checks; sequences of TBUILD; a QBYTE that moves J alone; the frames; the
statements themselves. -/

namespace Sys2Proof

/-! ## Bytes and words bit by bit -/

theorem xor_and_distrib (a b m : Byte) : (a ^^^ b) &&& m = (a &&& m) ^^^ (b &&& m) :=
  BitVec.eq_of_toNat_eq Nat.and_xor_distrib_right

theorem and_xor_distrib (b m n : Byte) : b &&& (m ^^^ n) = (b &&& m) ^^^ (b &&& n) :=
  BitVec.eq_of_toNat_eq Nat.and_xor_distrib_left

theorem bit_eq_one_iff (x : Bit) : x = 1 ↔ x.getLsbD 0 = true := by
  rcases BitVec.eq_zero_or_eq_one x with rfl | rfl <;> decide

/-- A word with a zero reserved field, as the or of its shifted fields (30_encoding R71). -/
theorem packWord_eq_or (o : BitVec 4) (q : BitVec 2) (d : Byte) :
    packWord o q d = (o.setWidth 16 <<< 12) ||| (q.setWidth 16 <<< 8) ||| d.setWidth 16 := by
  apply BitVec.eq_of_getLsbD_eq
  intro i hi
  unfold packWord
  simp only [BitVec.getLsbD_append, BitVec.getLsbD_or, BitVec.getLsbD_shiftLeft, BitVec.getLsbD_setWidth]
  interval_cases i <;> simp

end Sys2Proof

namespace Sys2Proof.Machine

open Sys2Proof Sys2Proof.Safety Sys2Proof.Claims

variable {s t : State} {i i' : Instr} {d : Byte}

/-! ## The fold unit (40_tables R100, R101) -/

theorem getLsbD_foldStep (t : Byte) (n k : Nat) : (foldStep t n).getLsbD k = (t.getLsbD k ^^ t.getLsbD (n + k)) := by
  rw [foldStep, BitVec.getLsbD_xor, BitVec.getLsbD_ushiftRight]

theorem foldStep_xor (a b : Byte) (n : Nat) : foldStep (a ^^^ b) n = foldStep a n ^^^ foldStep b n := by
  simp only [foldStep, BitVec.ushiftRight_xor_distrib]
  ac_rfl

/-- Each step of the fold doubles the number of bits that meet in bit 0. -/
theorem getLsbD_parity (b : Byte) : (parity b).getLsbD 0 =
    (b.getLsbD 0 ^^ b.getLsbD 1 ^^ b.getLsbD 2 ^^ b.getLsbD 3 ^^ b.getLsbD 4 ^^ b.getLsbD 5 ^^ b.getLsbD 6 ^^
      b.getLsbD 7) := by
  simp only [parity, BitVec.getLsbD_extractLsb', getLsbD_foldStep, Nat.zero_lt_one, decide_true, Bool.true_and,
    Nat.add_zero, Nat.reduceAdd]
  ac_rfl

theorem parity_xor (a b : Byte) : parity (a ^^^ b) = parity a ^^^ parity b := by
  simp only [parity, foldStep_xor, BitVec.extractLsb'_xor]

/-- The XOR of a list of bits says whether an odd number of them is 1. -/
theorem bodd_length_filter (p : Nat → Bool) (l : List Nat) :
    (l.filter p).length.bodd = l.foldr (fun k x => p k ^^ x) false := by
  induction l with
  | nil => simp
  | cons k l ih => cases hk : p k <;> simp [hk, ← ih]

theorem parity_eq_one_iff_odd (b : Byte) : parity b = 1 ↔ ((List.range 8).filter b.getLsbD).length % 2 = 1 := by
  have h : (parity b).getLsbD 0 = ((List.range 8).filter b.getLsbD).length.bodd := by
    rw [bodd_length_filter, getLsbD_parity]
    simp [List.range_succ]
  rw [bit_eq_one_iff, h, Nat.mod_two_of_bodd, Bool.toNat_eq_one]

/-- What a command that writes a bit to RES leaves there (40_tables R102, R110). -/
theorem setWidth_bit (x : Bit) : x.setWidth 8 = if x = 1 then (0x01 : Byte) else 0x00 := by
  rcases BitVec.eq_zero_or_eq_one x with rfl | rfl <;> decide

/-! ## The generator (40_tables R103, R104) -/

/-- A bit in lane `n` shows in bit `n` only. -/
theorem getLsbD_lane (x : Bit) (n : Nat) {k : Nat} (hk : k < 8) :
    (x.setWidth 8 <<< n).getLsbD k = (decide (k = n) && x.getLsbD 0) := by
  rw [BitVec.getLsbD_shiftLeft, BitVec.getLsbD_setWidth]
  rcases lt_trichotomy k n with h | rfl | h
  · simp [h, h.ne]
  · simp [hk]
  · rw [BitVec.getLsbD_of_ge x (k - n) (by omega)]
    simp [h.ne']

/-- Bit `k` of the result is lane `k`; there is no lane 7. -/
theorem getLsbD_maskLanes (p : Byte → Bit) (b : Byte) {k : Nat} (hk : k < 8) :
    (maskLanes p b).getLsbD k = (columnMasks[k]?.elim false fun m => (p (b &&& m)).getLsbD 0) := by
  simp only [maskLanes, columnMasks, List.zipIdx_cons, List.zipIdx_nil, List.foldl_cons, List.foldl_nil,
    BitVec.getLsbD_or, getLsbD_lane _ _ hk]
  interval_cases k <;> simp

theorem getLsbD_maskLanes_of_mask (p : Byte → Bit) (b : Byte) {k : Nat} {m : Byte} (h : columnMasks[k]? = some m) :
    (maskLanes p b).getLsbD k = (p (b &&& m)).getLsbD 0 := by
  have hk : k < 7 := (List.getElem?_eq_some_iff.mp h).1
  rw [getLsbD_maskLanes p b (by omega), h, Option.elim_some]

theorem getLsbD_maskLanes_seven (p : Byte → Bit) (b : Byte) : (maskLanes p b).getLsbD 7 = false :=
  getLsbD_maskLanes p b (by decide)

theorem getLsbD_columnParityMask (b : Byte) {k : Nat} {m : Byte} (h : columnMasks[k]? = some m) :
    (columnParityMask b).getLsbD k = (parity (b &&& m)).getLsbD 0 :=
  getLsbD_maskLanes_of_mask parity b h

/-- Lane by lane, since parity is linear and a mask distributes over XOR. -/
theorem columnParityMask_xor (a b : Byte) :
    columnParityMask (a ^^^ b) = columnParityMask a ^^^ columnParityMask b := by
  apply BitVec.eq_of_getLsbD_eq
  intro k hk
  rw [BitVec.getLsbD_xor]
  simp only [columnParityMask, getLsbD_maskLanes parity _ hk]
  cases columnMasks[k]? with
  | none => rfl
  | some m => simp only [Option.elim_some, xor_and_distrib, parity_xor, BitVec.getLsbD_xor]

/-- M[0] and M[4] part the byte between them. -/
theorem columnParityMask_zero_xor_four (b : Byte) :
    ((columnParityMask b).getLsbD 0 ^^ (columnParityMask b).getLsbD 4) = (parity b).getLsbD 0 := by
  have hpart : (b &&& 0x55) ^^^ (b &&& 0xAA) = b := (and_xor_distrib b 0x55 0xAA).symm.trans BitVec.and_allOnes
  rw [getLsbD_columnParityMask b (k := 0) rfl, getLsbD_columnParityMask b (k := 4) rfl, ← BitVec.getLsbD_xor,
    ← parity_xor, hpart]

theorem parity_of_columnParityMask_eq_zero {b : Byte} (h : columnParityMask b = 0) : parity b = 0 := by
  have hp : (parity b).getLsbD 0 = false := by rw [← columnParityMask_zero_xor_four, h]; rfl
  rcases BitVec.eq_zero_or_eq_one (parity b) with h0 | h1
  · exact h0
  · rw [h1] at hp; cases hp

/-- The bytes with an empty mask (40_tables R105). -/
theorem columnParityMask_eq_zero_iff (b : Byte) : columnParityMask b = 0x00 ↔
    b ∈ [0x00#8, 0x0F, 0x33, 0x3C, 0x55, 0x5A, 0x66, 0x69, 0x96, 0x99, 0xA5, 0xAA, 0xC3, 0xCC, 0xF0, 0xFF] := by
  revert b
  decide +kernel

/-! ## The tables TBUILD leaves (40_tables R106, R108, R109) -/

/-- What a TBUILD leaves. -/
def tablesFilled (s : State) : State := { s with pt := builtPt, cpmt := builtCpmt builtPt, tb := true }

theorem effect_tbuild (s : State) : Effect .tbuild s (tablesFilled s) := rfl

theorem builtCpmt_builtPt : builtCpmt builtPt = Vector.ofFn fun b => columnParityMask (BitVec.ofNat 8 b.val) := by
  simp only [builtCpmt, columnParityMask, maskLanes_congr ptAt_builtPt]

theorem toList_builtPt : builtPt.toList.map BitVec.toNat = printedPt := by
  rw [builtPt, Vector.toList_ofFn, List.map_ofFn]
  decide +kernel

theorem toList_builtCpmt : (builtCpmt builtPt).toList.map BitVec.toNat = printedCpmt := by
  rw [builtCpmt_builtPt, Vector.toList_ofFn, List.map_ofFn]
  decide +kernel

/-! ## What a command does under its checks (60_exceptions R173, R175) -/

/-- The other direction of `exec_cases`: a command whose checks pass has its effect. -/
theorem exec_of_effect (hf : s.fault = .noFault) (h : Effect i s t) : exec i s = .next t := by
  cases i <;> simp only [Effect] at h
  case tbuild | poppar | cpmgen | eclr => subst h; exact congrArg _ (unlessFaulted_of_noFault _ hf)
  case ptlkp | cpmlkp =>
    obtain ⟨htb, rfl⟩ := h
    simp [exec, execPtlkp, execCpmlkp, unlessFaulted_of_noFault _ hf, htb]
  case qinit => obtain ⟨hq, rfl⟩ := h; simp [exec, execQinit, unlessFaulted_of_noFault _ hf, hq]
  case qbyte =>
    obtain ⟨htb, hq, hj, rfl⟩ := h
    simp only [exec, execQbyte, unlessFaulted_of_noFault _ hf, htb, hq, Bool.true_eq_false, if_false, if_neg hj]
  case qemit =>
    obtain ⟨hq, hj, rfl⟩ := h
    simp only [exec, execQemit, unlessFaulted_of_noFault _ hf, hq, Bool.true_eq_false, if_false, if_neg hj]
  case epage =>
    obtain ⟨htb, hq, page, hp, rfl⟩ := h
    exact exec_epage_of_run hf htb hq hp

theorem exec_of_faulted (i : Instr) (hf : s.fault ≠ .noFault) : exec i s = .next s := by
  obtain ⟨t, ht⟩ := exec_total i s
  rcases exec_cases ht with ⟨-, rfl⟩ | ⟨h, -⟩ | ⟨h, -⟩
  · exact ht
  · exact absurd h hf
  · exact absurd h hf

/-- Two commands with one effect do the same, in the faulted state too. -/
theorem exec_congr (h : Effect i s t) (h' : Effect i' s t) : exec i s = exec i' s := by
  by_cases hf : s.fault = .noFault
  · rw [exec_of_effect hf h, exec_of_effect hf h']
  · rw [exec_of_faulted i hf, exec_of_faulted i' hf]

/-- Check 3 of 60_exceptions R175. -/
theorem exec_of_tables_not_built (hi : needsTables i = true) (hf : s.fault = .noFault) (htb : s.tb = false) :
    exec i s = .next { s with fault := .tablesNotBuilt } := by
  cases i
  case ptlkp | cpmlkp | qbyte | epage =>
    simp only [exec, execPtlkp, execCpmlkp, execQbyte, execEpage, unlessFaulted_of_noFault _ hf, htb, if_true,
      raise_of_noFault _ hf]
  all_goals cases hi

theorem exec_ptlkp_eq_poppar (d : Byte) (ht : TablesBuilt s) (htb : s.tb = true) :
    exec (.ptlkp d) s = exec (.poppar d) s :=
  exec_congr ⟨htb, by rw [(ht d).1]⟩ rfl

theorem exec_cpmlkp_eq_cpmgen (d : Byte) (ht : TablesBuilt s) (htb : s.tb = true) :
    exec (.cpmlkp d) s = exec (.cpmgen d) s :=
  exec_congr ⟨htb, by rw [(ht d).2]⟩ rfl

/-! ## Sequences of one command -/

theorem execAll_cons (is : List Instr) (h : exec i s = .next t) : execAll (i :: is) s = execAll is t := by
  simp only [execAll, h]

/-- A command that changes nothing may be repeated. -/
theorem execAll_replicate_of_fixed (h : exec i s = .next s) (n : Nat) :
    execAll (List.replicate n i) s = .next s := by
  induction n with
  | zero => rfl
  | succ n ih => rw [List.replicate_succ, execAll_cons _ h, ih]

/-! ## A QBYTE that moves J alone (41_ecc R132) -/

theorem accumulate_of_even (h : ptAt s.pt d = 0) :
    (accumulate s d).lp0 = s.lp0 ∧ (accumulate s d).lp1 = s.lp1 := by
  have hne : ptAt s.pt d ≠ 1 := by rw [h]; decide
  exact ⟨if_neg hne, if_neg hne⟩

theorem accumulate_cp_of_empty (h : cpmtAt s.cpmt d = 0) (hm : s.cfg.cpMode = .cumulative) :
    (accumulate s d).cp = s.cp := by
  rw [accumulate_cp, hm, cpStep, h]
  exact BitVec.xor_zero

theorem accumulate_of_even_of_empty (hp : ptAt s.pt d = 0) (hc : cpmtAt s.cpmt d = 0)
    (hm : s.cfg.cpMode = .cumulative) : accumulate s d = { s with j := s.j + 1 } := by
  obtain ⟨h0, h1⟩ := accumulate_of_even hp
  have hcp := accumulate_cp_of_empty hc hm
  calc accumulate s d
      = { s with
          cp := (accumulate s d).cp, lp0 := (accumulate s d).lp0, lp1 := (accumulate s d).lp1, j := s.j + 1 } := rfl
    _ = { s with j := s.j + 1 } := by rw [hcp, h0, h1]

/-! ## Frames (40_tables R106, 41_ecc R131, R132) -/

/-- TBUILD has no check to fail but the faulted state's, so that not even FAULT moves. -/
theorem exec_tbuild_frame (h : exec .tbuild s = .next t) : t = { s with pt := t.pt, cpmt := t.cpmt, tb := t.tb } := by
  by_cases hf : s.fault = .noFault
  · cases (exec_of_effect hf (effect_tbuild s)).symm.trans h; rfl
  · cases (exec_of_faulted .tbuild hf).symm.trans h; rfl

theorem exec_qinit_frame {q : BitVec 2} (h : exec (.qinit q) s = .next t) :
    t = { s with
      q := t.q, cp := t.cp, lp0 := t.lp0, lp1 := t.lp1, j := t.j, qopen := t.qopen, fault := t.fault } := by
  rcases exec_cases h with ⟨-, rfl⟩ | ⟨-, c, -, rfl⟩ | ⟨-, -, rfl⟩ <;> rfl

theorem exec_qbyte_frame (h : exec (.qbyte d) s = .next t) :
    t = { s with cp := t.cp, lp0 := t.lp0, lp1 := t.lp1, j := t.j, fault := t.fault } := by
  rcases exec_cases h with ⟨-, rfl⟩ | ⟨-, c, -, rfl⟩ | ⟨-, -, -, -, rfl⟩ <;> rfl

end Sys2Proof.Machine

namespace Sys2Proof.Proofs

open Sys2Proof Sys2Proof.Machine Sys2Proof.Safety Sys2Proof.Claims

/-! ## The tables -/

/-- Settles O27: the state one TBUILD leaves is one that TBUILD does not change, and its tables are the printed ones. -/
theorem tbuildLeavesThePrintedTables : Obligations.TbuildLeavesThePrintedTables := by
  intro n s hf
  have hfill : exec .tbuild s = .next (tablesFilled s) := exec_of_effect hf (effect_tbuild s)
  have hfixed : exec .tbuild (tablesFilled s) = .next (tablesFilled s) :=
    exec_of_effect hf (effect_tbuild (tablesFilled s))
  refine ⟨tablesFilled s, ?_, hfill, toList_builtPt, toList_builtCpmt⟩
  rw [List.replicate_succ, execAll_cons _ hfill, execAll_replicate_of_fixed hfixed]

/-- Settles O30: a lookup reads what the unit computes; lanes 0 and 4 of an empty mask XOR to an even parity. -/
theorem lookupLawsOnceBuilt : Obligations.LookupLawsOnceBuilt := by
  intro s hs htb
  have ht : TablesBuilt s := hs htb
  refine ⟨ht, fun d => ⟨exec_ptlkp_eq_poppar d ht htb, exec_cpmlkp_eq_cpmgen d ht htb⟩, fun b => ?_, fun b hb => ?_⟩
  · rw [(ht b).2]
    exact columnParityMask_eq_zero_iff b
  · rw [(ht b).2] at hb
    rw [(ht b).1]
    exact parity_of_columnParityMask_eq_zero hb

/-- Settles O34: a discarded or faulting QBYTE moves FAULT alone; the effect adds nothing for a zero table entry. -/
theorem qbyteCornerBytes : Obligations.QbyteCornerBytes := by
  intro d s t hs h htb
  rcases exec_cases h with ⟨hf, rfl⟩ | ⟨-, c, hc, rfl⟩ | ⟨-, -, -, -, rfl⟩
  · exact ⟨fun _ => ⟨rfl, rfl⟩, fun _ _ => rfl, fun _ _ hn => absurd hn hf⟩
  · exact ⟨fun _ => ⟨rfl, rfl⟩, fun _ _ => rfl, fun _ _ hn => absurd hn hc⟩
  · refine ⟨accumulate_of_even, accumulate_cp_of_empty, fun hd hm _ => ?_⟩
    have hzero : parity d = 0 ∧ columnParityMask d = 0 := by rcases hd with rfl | rfl <;> decide
    obtain ⟨hp, hc⟩ := hs htb d
    exact accumulate_of_even_of_empty (hp.trans hzero.1) (hc.trans hzero.2) hm

/-- Settles O47: the three frames; none of the three commands stores to a buffer. -/
theorem frameOfTableAndQuarterCommands : Obligations.FrameOfTableAndQuarterCommands := by
  refine fun s t => ⟨exec_tbuild_frame, fun q => exec_qinit_frame, fun d => exec_qbyte_frame, fun d q i hi h => ?_⟩
  have hstore : ∀ a, ¬ StoresAt i s a := by
    simp only [List.mem_cons, List.not_mem_nil, or_false] at hi
    rcases hi with rfl | rfl | rfl <;> exact fun _ => id
  exact ⟨fun a => by rw [exec_pageBuf h], fun a => exec_eccBuf_read (hstore a) h⟩

/-! ## The fold unit and the generator -/

/-- Settles O21: the fold XORs all eight bits, and each of its steps is linear. -/
theorem parityIsXorOfAllBits : Obligations.ParityIsXorOfAllBits :=
  ⟨getLsbD_parity, parity_eq_one_iff_odd, parity_xor⟩

/-- Settles O22: each lane is the XOR of the eight bits under its mask. -/
theorem maskLaneFormulas : Obligations.MaskLaneFormulas := by
  refine ⟨fun b k m h => getLsbD_columnParityMask b h, rfl, fun b => ?_⟩
  have lane : ∀ k m, columnMasks[k]? = some m → (columnParityMask b).getLsbD k = (parity (b &&& m)).getLsbD 0 :=
    fun _ _ => getLsbD_columnParityMask b
  obtain ⟨h3, h7⟩ := columnParityMask_getLsbD_three_seven b
  simp only [lane 0 _ rfl, lane 1 _ rfl, lane 2 _ rfl, lane 4 _ rfl, lane 5 _ rfl, lane 6 _ rfl, h3, h7,
    getLsbD_parity, BitVec.getLsbD_and]
  simp

/-- Settles O23: the lanes are linear, and lanes 0 and 4 part the byte; the eight bytes of one bit are computed. -/
theorem maskProperties : Obligations.MaskProperties :=
  ⟨columnParityMask_getLsbD_three_seven, columnParityMask_xor, columnParityMask_zero_xor_four, by decide⟩

/-! ## The commands -/

/-- Settles O24: the bit that POPPAR writes is 1 for an odd number of 1 bits. -/
theorem popparResult : Obligations.PopparResult := by
  refine ⟨packWord_eq_or 0x2 0, fun d s hf => ?_⟩
  have hres : (parity d).setWidth 8 =
      if ((List.range 8).filter d.getLsbD).length % 2 = 1 then (0x01 : Byte) else 0x00 := by
    simp only [setWidth_bit, parity_eq_one_iff_odd]
  rw [← hres]
  exact exec_of_effect hf rfl

/-- Settles O25: RES is the mask, lane by lane. -/
theorem cpmgenResult : Obligations.CpmgenResult := by
  refine ⟨packWord_eq_or 0x3 0, fun d s hf => ?_⟩
  obtain ⟨h3, h7⟩ := columnParityMask_getLsbD_three_seven d
  exact ⟨writeRes (columnParityMask d) s, exec_of_effect hf rfl, rfl, fun k m h => getLsbD_columnParityMask d h, h3, h7,
    columnParityMask_eq_zero_iff d⟩

/-- Settles O26: the tables are filled from the units, and a second TBUILD fills them with the same. -/
theorem tbuildResult : Obligations.TbuildResult := by
  refine ⟨rfl, fun s hf => ⟨tablesFilled s, exec_of_effect hf (effect_tbuild s), rfl, ptAt_builtPt, fun b => ?_,
    status_getLsbD_zero _, ?_, exec_of_effect hf (effect_tbuild (tablesFilled s))⟩⟩
  · rw [tablesFilled, cpmtAt_builtCpmt]
    exact ⟨fun k m h => getLsbD_maskLanes_of_mask _ b h, getLsbD_maskLanes_seven _ b⟩
  · have hres : (ptAt (tablesFilled s).pt 0x07).setWidth 8 = (0x01 : Byte) := by
      rw [tablesFilled, ptAt_builtPt]
      decide
    rw [← hres]
    exact exec_of_effect hf ⟨rfl, rfl⟩

/-- Settles O28: PT holds bits, and with sound tables the bit is POPPAR's. -/
theorem ptlkpResult : Obligations.PtlkpResult := by
  refine ⟨packWord_eq_or 0x4 0, fun d s hf => ?_⟩
  have hlook : s.tb = true → exec (.ptlkp d) s = .next (writeRes ((ptAt s.pt d).setWidth 8) s) :=
    fun htb => exec_of_effect hf ⟨htb, rfl⟩
  refine ⟨exec_of_tables_not_built rfl hf, hlook, fun htb hs => exec_ptlkp_eq_poppar d (hs htb) htb, fun t h htb => ?_⟩
  cases (hlook htb).symm.trans h
  rw [writeRes_res, setWidth_bit]
  exact (ite_eq_or_eq _ _ _).symm

/-- Settles O29: with sound tables the entry is CPMGEN's, and the mask of 0xFF is empty. -/
theorem cpmlkpResult : Obligations.CpmlkpResult := by
  refine ⟨packWord_eq_or 0x5 0, fun d s hf => ?_⟩
  have hlook : ∀ d, s.tb = true → exec (.cpmlkp d) s = .next (writeRes (cpmtAt s.cpmt d) s) :=
    fun d htb => exec_of_effect hf ⟨htb, rfl⟩
  refine ⟨exec_of_tables_not_built rfl hf, hlook d, fun htb hs => exec_cpmlkp_eq_cpmgen d (hs htb) htb,
    fun t h htb hs => ?_⟩
  cases (hlook 0xFF htb).symm.trans h
  rw [writeRes_res, (hs htb 0xFF).2]
  decide

end Sys2Proof.Proofs


/-! # The ECC encoder: the group of a quarter in closed form, and what EPAGE leaves

The layers, in order: lists of bytes and the odd offsets among them; the accumulators after the bytes of a quarter; the
bytes a group is emitted with and their zero bits; the encoder's checks and its sequences of commands; the four groups
of a page; built tables, empty masks and flipped bits; the statements themselves. -/

namespace Sys2Proof.Machine

open Sys2Proof Sys2Proof.Safety Sys2Proof.Claims

variable {s t t' : State} {i : Instr} {q : BitVec 2} {bs page : List Byte} {b v w x e e' : Byte} {pt : Vector Bit 256}
  {cpmt : Vector Byte 256} {ix : LpIndex} {mode : CpMode} {m m' : Memory} {a j k n : Nat}

/-! ## The XOR of a list of bytes -/

theorem foldr_xor_append (l r : List Byte) :
    (l ++ r).foldr (· ^^^ ·) 0 = l.foldr (· ^^^ ·) 0 ^^^ r.foldr (· ^^^ ·) 0 := by
  have h := List.foldr_assoc (op := fun x y : Byte => x ^^^ y) (l := l) (a₁ := 0) (a₂ := r.foldr (· ^^^ ·) 0)
  rw [List.foldr_append, ← h, show 0 ^^^ r.foldr (· ^^^ ·) 0 = r.foldr (· ^^^ ·) 0 from BitVec.zero_xor]

theorem foldr_xor_concat (l : List Byte) (x : Byte) : (l ++ [x]).foldr (· ^^^ ·) 0 = l.foldr (· ^^^ ·) 0 ^^^ x := by
  rw [foldr_xor_append]
  simp

theorem foldr_xor_of_forall_zero {l : List Byte} (h : ∀ x ∈ l, x = 0) : l.foldr (· ^^^ ·) 0 = 0 := by
  induction l with
  | nil => rfl
  | cons x l ih =>
    rw [List.foldr_cons, h x List.mem_cons_self, ih fun y hy => h y (List.mem_cons_of_mem _ hy)]
    rfl

/-- Changing one byte of a list changes the XOR by that byte's change. -/
theorem foldr_xor_set {l : List Byte} (hj : j < l.length) (x y : Byte) :
    (l.set j x).foldr (· ^^^ ·) 0 = (l.set j y).foldr (· ^^^ ·) 0 ^^^ (x ^^^ y) := by
  simp only [List.set_eq_take_append_cons_drop, if_pos hj, foldr_xor_append, List.foldr_cons]
  generalize (l.take j).foldr (· ^^^ ·) 0 = p
  generalize (l.drop (j + 1)).foldr (· ^^^ ·) 0 = r
  calc p ^^^ (x ^^^ r) = (p ^^^ (x ^^^ r)) ^^^ (y ^^^ y) := by rw [BitVec.xor_self, BitVec.xor_zero]
    _ = (p ^^^ (y ^^^ r)) ^^^ (x ^^^ y) := by ac_rfl

/-! ## The odd offsets and the line index (41_ecc R137) -/

/-- The offset a byte contributes to `O`. -/
def ownOffset (pt : Vector Bit 256) (b : Byte) (n : Nat) : List Nat := if ptAt pt b = 1 then [n] else []

theorem oddOffsets_append (pt : Vector Bit 256) (bs cs : List Byte) :
    oddOffsets pt (bs ++ cs) = oddOffsets pt bs ++ (oddOffsets pt cs).map (· + bs.length) := by
  simp only [oddOffsets, List.zipIdx_append, List.filter_append, List.map_append, Nat.zero_add]
  rw [← Nat.add_zero bs.length, ← List.map_snd_add_zipIdx_eq_zipIdx, List.filter_map, List.map_map, List.map_map]
  rfl

theorem oddOffsets_cons (pt : Vector Bit 256) (b : Byte) (bs : List Byte) :
    oddOffsets pt (b :: bs) = ownOffset pt b 0 ++ (oddOffsets pt bs).map (· + 1) := by
  have hone : oddOffsets pt [b] = ownOffset pt b 0 := by
    rw [oddOffsets, ownOffset, List.zipIdx_singleton, List.filter_singleton]
    by_cases h : ptAt pt b = 1
    · rw [if_pos h, beq_iff_eq.mpr h]; rfl
    · rw [if_neg h, beq_eq_false_iff_ne.mpr h]; rfl
  rw [← hone]
  exact oddOffsets_append pt [b] bs

theorem map_add_ownOffset (pt : Vector Bit 256) (b : Byte) (n k : Nat) :
    (ownOffset pt b n).map (· + k) = ownOffset pt b (n + k) := by
  unfold ownOffset
  split <;> rfl

theorem oddOffsets_concat (pt : Vector Bit 256) (bs : List Byte) (b : Byte) :
    oddOffsets pt (bs ++ [b]) = oddOffsets pt bs ++ ownOffset pt b bs.length := by
  rw [oddOffsets_append, oddOffsets_cons, List.map_append, map_add_ownOffset, Nat.zero_add]
  exact congrArg _ (List.append_nil _)

/-- In a list of bytes, one byte decides about its own offset only. -/
theorem oddOffsets_set (pt : Vector Bit 256) (hj : j < bs.length) :
    ∃ pre post, ∀ v, oddOffsets pt (bs.set j v) = pre ++ (ownOffset pt v j ++ post) := by
  refine ⟨oddOffsets pt (bs.take j), ((oddOffsets pt (bs.drop (j + 1))).map (· + 1)).map (· + j), fun v => ?_⟩
  have hlen : (bs.take j).length = j := List.length_take_of_le hj.le
  rw [List.set_eq_take_append_cons_drop, if_pos hj, oddOffsets_append, oddOffsets_cons, List.map_append,
    map_add_ownOffset, hlen, Nat.zero_add]

theorem length_oddOffsets_cons (pt : Vector Bit 256) (b : Byte) (bs : List Byte) :
    (oddOffsets pt (b :: bs)).length = (if ptAt pt b = 1 then 1 else 0) + (oddOffsets pt bs).length := by
  rw [oddOffsets_cons, List.length_append, List.length_map, ownOffset]
  split <;> rfl

theorem lineIndex_eq (ix : LpIndex) (j : Byte) (q : BitVec 2) :
    lineIndex ix j q = if ix = .byteOffset then j else BitVec.ofNat 8 q.toNat := by
  cases ix with
  | byteOffset => rfl
  | quarterIndex => exact (BitVec.ofNat_toNat 8 q).symm

/-- The index of the byte that J counts next. -/
theorem lineIndex_ofNat (ix : LpIndex) (n : Nat) (q : BitVec 2) :
    lineIndex ix (BitVec.ofNat 8 n) q = lineIdx ix q.toNat n := by
  rw [lineIndex_eq]
  cases ix <;> rfl

/-- What a byte of a quarter contributes to `X`. -/
def ownIndex (ix : LpIndex) (q : Nat) (pt : Vector Bit 256) (b : Byte) (n : Nat) : Byte :=
  if ptAt pt b = 1 then lineIdx ix q n else 0

theorem foldr_xor_map_ownOffset (q : Nat) (b : Byte) (n : Nat) :
    ((ownOffset pt b n).map (lineIdx ix q)).foldr (· ^^^ ·) 0 = ownIndex ix q pt b n := by
  unfold ownOffset ownIndex
  split
  · exact BitVec.xor_zero
  · rfl

theorem lineXor_nil (ix : LpIndex) (q : Nat) (pt : Vector Bit 256) : lineXor ix q pt [] = 0 := rfl

theorem lineXor_concat (ix : LpIndex) (q : Nat) (pt : Vector Bit 256) (bs : List Byte) (b : Byte) :
    lineXor ix q pt (bs ++ [b]) = lineXor ix q pt bs ^^^ ownIndex ix q pt b bs.length := by
  rw [lineXor, oddOffsets_concat, List.map_append, foldr_xor_append, foldr_xor_map_ownOffset, lineXor]

/-- Every index is below 128, hence bit 7 of `X` is 0 (10_state R25). -/
theorem getLsbD_lineXor_seven (q : BitVec 2) (hl : bs.length ≤ 128) :
    (lineXor ix q.toNat pt bs).getLsbD 7 = false := by
  induction bs using List.reverseRecOn with
  | nil => rw [lineXor_nil]; rfl
  | append_singleton bs b ih =>
    rw [List.length_append, List.length_singleton] at hl
    have hn : BitVec.ofNat 8 bs.length < 128 := by bv_omega
    rw [lineXor_concat, BitVec.getLsbD_xor, ih (by omega), ownIndex]
    split
    · rw [← lineIndex_ofNat, getLsbD_lineIndex_seven ix hn]; rfl
    · rfl

/-- Under QUARTER_INDEX the indices are all `q`, so that pairs of them cancel. -/
theorem lineXor_quarterIndex (q : Nat) (pt : Vector Bit 256) (bs : List Byte) :
    lineXor .quarterIndex q pt bs = if (oddOffsets pt bs).length % 2 = 1 then BitVec.ofNat 8 q else 0 := by
  unfold lineXor
  induction oddOffsets pt bs with
  | nil => rfl
  | cons n l ih =>
    rw [List.map_cons, List.foldr_cons, ih, List.length_cons, lineIdx]
    rcases Nat.mod_two_eq_zero_or_one l.length with h | h
    · rw [if_neg (by omega), if_pos (by omega)]; exact BitVec.xor_zero
    · rw [if_pos h, if_neg (by omega), BitVec.xor_self]; rfl

/-- With the tables built, the number of odd bytes is odd exactly when their XOR has odd parity: parity is linear. -/
theorem length_oddOffsets_odd_iff (hpt : ∀ b, ptAt pt b = parity b) (bs : List Byte) :
    (oddOffsets pt bs).length % 2 = 1 ↔ parity (bs.foldr (· ^^^ ·) 0) = 1 := by
  induction bs with
  | nil => exact iff_of_false (by decide : ¬ 0 % 2 = 1) (by decide)
  | cons b bs ih =>
    rw [length_oddOffsets_cons, List.foldr_cons, parity_xor, hpt]
    generalize (oddOffsets pt bs).length = n at ih ⊢
    generalize parity (bs.foldr (· ^^^ ·) 0) = x at ih ⊢
    rcases BitVec.eq_zero_or_eq_one (parity b) with h | h <;> rw [h]
    · rw [if_neg (by decide), Nat.zero_add, BitVec.zero_xor, ih]
    · rw [if_pos (by decide)]
      rcases BitVec.eq_zero_or_eq_one x with rfl | rfl
      · have : ¬ n % 2 = 1 := by rw [ih]; decide
        exact iff_of_true (by omega) (by decide)
      · have : n % 2 = 1 := ih.mpr rfl
        exact iff_of_false (by omega) (by decide)

/-! ## One byte of a quarter changed (41_ecc R140) -/

/-- The two bytes differ in parity, as the tables have it. -/
def ParityFlips (pt : Vector Bit 256) (v w : Byte) : Prop := ptAt pt v = 1 ↔ ¬ ptAt pt w = 1

theorem length_oddOffsets_set (hj : j < bs.length) (hp : ParityFlips pt v w) :
    (oddOffsets pt (bs.set j v)).length % 2 = 0 ↔ ¬ (oddOffsets pt (bs.set j w)).length % 2 = 0 := by
  obtain ⟨pre, post, h⟩ := oddOffsets_set pt hj
  simp only [h, List.length_append, ownOffset]
  by_cases hw : ptAt pt w = 1
  · rw [if_neg fun hv => hp.mp hv hw, if_pos hw, List.length_nil, List.length_singleton]; omega
  · rw [if_pos (hp.mpr hw), if_neg hw, List.length_nil, List.length_singleton]; omega

theorem ownIndex_of_flips (q : Nat) (hp : ParityFlips pt v w) (n : Nat) :
    ownIndex ix q pt v n = ownIndex ix q pt w n ^^^ lineIdx ix q n := by
  unfold ownIndex
  by_cases hw : ptAt pt w = 1
  · rw [if_neg fun hv => hp.mp hv hw, if_pos hw, BitVec.xor_self]; rfl
  · rw [if_pos (hp.mpr hw), if_neg hw]; exact BitVec.zero_xor.symm

theorem lineXor_set (q : Nat) (hj : j < bs.length) (hp : ParityFlips pt v w) :
    lineXor ix q pt (bs.set j v) = lineXor ix q pt (bs.set j w) ^^^ lineIdx ix q j := by
  obtain ⟨pre, post, h⟩ := oddOffsets_set pt hj
  simp only [lineXor, h, List.map_append, foldr_xor_append, foldr_xor_map_ownOffset, ownIndex_of_flips q hp]
  ac_rfl

/-! ## The accumulators after the bytes of a quarter (41_ecc R132 to R135) -/

theorem foldl_seed_j (bs : List Byte) (q : BitVec 2) (s : State) :
    (bs.foldl accumulate (seedQuarter q s)).j = BitVec.ofNat 8 bs.length := by
  rw [foldl_accumulate_j, seedQuarter_j]
  exact BitVec.zero_add _

theorem foldl_seed_lp1 (bs : List Byte) (q : BitVec 2) (s : State) :
    (bs.foldl accumulate (seedQuarter q s)).lp1 = 0x7F ^^^ lineXor s.cfg.lpIndex q.toNat s.pt bs := by
  induction bs using List.reverseRecOn with
  | nil => rw [lineXor_nil]; rfl
  | append_singleton bs b ih =>
    rw [List.foldl_concat, accumulate_lp1, ih, foldl_seed_j, lineXor_concat, ownIndex, ← BitVec.xor_assoc]
    simp only [foldl_accumulate_pt, foldl_accumulate_cfg, foldl_accumulate_q, seedQuarter_pt, seedQuarter_cfg,
      seedQuarter_q, lineIndex_ofNat]
    split
    · rfl
    · exact BitVec.xor_zero.symm

/-- An odd byte turns LP0 from LP1 to its complement and back. -/
theorem foldl_seed_lp0 (bs : List Byte) (q : BitVec 2) (s : State) :
    (bs.foldl accumulate (seedQuarter q s)).lp0 =
      if (oddOffsets s.pt bs).length % 2 = 0 then (bs.foldl accumulate (seedQuarter q s)).lp1
      else ~~~(bs.foldl accumulate (seedQuarter q s)).lp1 := by
  induction bs using List.reverseRecOn with
  | nil => rfl
  | append_singleton bs b ih =>
    rw [List.foldl_concat, accumulate_lp0, accumulate_lp1, ih, oddOffsets_concat, List.length_append, ownOffset]
    simp only [foldl_accumulate_pt, seedQuarter_pt]
    by_cases hb : ptAt s.pt b = 1
    · simp only [if_pos hb, List.length_singleton]
      rcases Nat.mod_two_eq_zero_or_one (oddOffsets s.pt bs).length with h | h
      · rw [if_pos h, if_neg (by omega), BitVec.not_xor_right]
      · rw [if_neg (by omega), if_pos (by omega), ← BitVec.not_xor_right, ← BitVec.not_xor_left, BitVec.not_not]
    · simp only [if_neg hb, List.length_nil, Nat.add_zero]

theorem foldl_seed_cp_concat (q : BitVec 2) (s : State) (bs : List Byte) (b : Byte) :
    ((bs ++ [b]).foldl accumulate (seedQuarter q s)).cp =
      cpStep s.cfg.cpMode s.cpmt (bs.foldl accumulate (seedQuarter q s)).cp b := by
  rw [List.foldl_concat, accumulate_cp, foldl_accumulate_cfg, foldl_accumulate_cpmt]
  rfl

theorem foldl_seed_cp (q : BitVec 2) (s : State) (hne : bs ≠ []) :
    IsColumnByte s.cfg.cpMode s.cpmt bs (bs.foldl accumulate (seedQuarter q s)).cp := by
  have hstep := foldl_seed_cp_concat q s
  cases hm : s.cfg.cpMode <;> rw [hm] at hstep
  case cumulative =>
    clear hne
    show _ = 0x77 ^^^ (bs.map (cpmtAt s.cpmt)).foldr (· ^^^ ·) 0
    induction bs using List.reverseRecOn with
    | nil => exact BitVec.xor_zero.symm
    | append_singleton bs b ih =>
      rw [hstep, cpStep, ih, List.map_append, List.map_singleton, foldr_xor_concat, BitVec.xor_assoc]
  case shadowSeed =>
    clear hne
    show _ = 0x77
    induction bs using List.reverseRecOn with
    | nil => rfl
    | append_singleton bs b ih => rw [hstep, cpStep, ih]
  case shadowLast =>
    obtain ⟨bs, b, rfl⟩ := (List.eq_nil_or_concat' bs).resolve_left hne
    exact ⟨b, List.getLast?_concat, hstep bs b⟩
  case unconstrained => trivial

/-! ## The bytes a group is emitted with (41_ecc R136) -/

theorem columnByte_eq (s : State) :
    columnByte s = if s.cfg.cpMode = .unconstrained then Config.freeByte s.draws else s.cp := by
  cases hm : s.cfg.cpMode <;> simp [columnByte, hm]

theorem drawsAfterEmit_eq (s : State) :
    drawsAfterEmit s = if s.cfg.cpMode = .unconstrained then s.draws + 1 else s.draws := by
  cases hm : s.cfg.cpMode <;> simp [drawsAfterEmit, hm]

/-- Groups do not overlap. -/
theorem not_mem_group_of_ne (hk : k ≠ q.toNat) (hlo : 3 * k ≤ a) (hhi : a ≤ 3 * k + 2) :
    ¬ (groupBase q ≤ a ∧ a < groupBase q + 3) := by
  unfold groupBase groupBytes
  omega

theorem emitGroup_read_other (hk : k ≠ s.q.toNat) (hlo : 3 * k ≤ a) (hhi : a ≤ 3 * k + 2) :
    (emitGroup s).eccBuf.read a = s.eccBuf.read a :=
  emitGroup_read_of_ne (not_mem_group_of_ne hk hlo hhi)

theorem emitGroup_read_column (s : State) (k : Nat) :
    (emitGroup s).eccBuf.read (3 * k) = if k = s.q.toNat then some (columnByte s) else s.eccBuf.read (3 * k) := by
  split
  · next hk => rw [emitGroup_read, groupBase, groupBytes, if_pos (by omega)]
  · next hk => exact emitGroup_read_other hk (by omega) (by omega)

theorem emitGroup_read_line0 (s : State) (k : Nat) : (emitGroup s).eccBuf.read (3 * k + 1) =
    if k = s.q.toNat then some (s.lp0 &&& lp0OutputMask) else s.eccBuf.read (3 * k + 1) := by
  split
  · next hk => rw [emitGroup_read, groupBase, groupBytes, if_neg (by omega), if_pos (by omega)]
  · next hk => exact emitGroup_read_other hk (by omega) (by omega)

theorem emitGroup_read_line1 (s : State) (k : Nat) : (emitGroup s).eccBuf.read (3 * k + 2) =
    if k = s.q.toNat then some s.lp1 else s.eccBuf.read (3 * k + 2) := by
  split
  · next hk => rw [emitGroup_read, groupBase, groupBytes, if_neg (by omega), if_neg (by omega), if_pos (by omega)]
  · next hk => exact emitGroup_read_other hk (by omega) (by omega)

/-! ## What ECLR leaves (41_ecc R142) -/

/-- What an ECLR leaves. -/
def eccCleared (s : State) : State := { s with eccBuf := s.eccBuf.clearTo eccBytes }

theorem exec_eclr_of_noFault (hf : s.fault = .noFault) : exec .eclr s = .next (eccCleared s) := by
  rw [eccCleared]
  exact exec_of_effect hf rfl

theorem eccCleared_frame (s : State) : eccCleared s = { s with eccBuf := (eccCleared s).eccBuf } := by
  rw [eccCleared]

theorem eccCleared_read (s : State) (a : Nat) :
    (eccCleared s).eccBuf.read a = if a < 16 then some 0 else s.eccBuf.read a := by
  rw [eccCleared, Memory.read_clearTo, eccBytes]

/-! ## The zero bits of the groups and the zero tail (41_ecc R139, R145) -/

theorem eccBufSound_congr (hs : EccBufSound s) (hb : t.eccBuf = s.eccBuf) (hc : t.cfg = s.cfg) : EccBufSound t := by
  unfold EccBufSound
  rw [hb, hc]
  exact hs

theorem eccBufSound_emitGroup (hs : EccBufSound s) (ha : AccumulatorsSound s) : EccBufSound (emitGroup s) := by
  obtain ⟨hgroups, htail⟩ := hs
  obtain ⟨h1, hc3, hc7, -⟩ := ha
  refine ⟨fun k hk v => ?_, fun a h12 h16 v h => ?_⟩
  · obtain ⟨hcol, hline0, hline1⟩ := hgroups k hk v
    rw [emitGroup_read_column, emitGroup_read_line0, emitGroup_read_line1, emitGroup_cfg]
    by_cases hq : k = s.q.toNat
    · simp only [if_pos hq, Option.some.injEq]
      refine ⟨fun h hm => ?_, fun h => ?_, fun h => h ▸ h1⟩
      · rw [← h, columnByte_eq, if_neg hm]; exact ⟨hc3, hc7⟩
      · rw [← h, BitVec.getLsbD_and]; exact Bool.and_false _
    · simp only [if_neg hq]
      exact ⟨hcol, hline0, hline1⟩
  · have hlt := groupBase_lt s.q
    rw [emitGroup_read_of_ne (by omega)] at h
    exact htail a h12 h16 v h

/-- The accumulators are seeded, so they are sound whatever they held before. -/
theorem eccBufSound_encodeQuarter (page : List Byte) (q : BitVec 2) (hs : EccBufSound s) (ht : TablesBuilt s) :
    EccBufSound (encodeQuarter page s q) := by
  refine eccBufSound_emitGroup (eccBufSound_congr hs ?_ ?_) (accumulatorsSound_encodeQuarter page q ht)
  · rw [foldl_accumulate_eccBuf, seedQuarter_eccBuf]
  · rw [foldl_accumulate_cfg, seedQuarter_cfg]

theorem eccBufSound_foldl_encodeQuarter (page : List Byte) (qs : List (BitVec 2)) (hs : EccBufSound s)
    (ht : TablesBuilt s) : EccBufSound (qs.foldl (encodeQuarter page) s) := by
  induction qs generalizing s with
  | nil => exact hs
  | cons q qs ih =>
    exact ih (eccBufSound_encodeQuarter page q hs ht)
      (tablesBuilt_congr ht (encodeQuarter_pt page s q) (encodeQuarter_cpmt page s q))

theorem eccBufSound_encodePage (page : List Byte) (hs : EccBufSound s) (ht : TablesBuilt s) :
    EccBufSound (encodePage page s) :=
  eccBufSound_foldl_encodeQuarter page _ hs ht

theorem eccBufSound_of_zeros (hz : ∀ a < 16, ∀ v, s.eccBuf.read a = some v → v = 0) : EccBufSound s := by
  refine ⟨fun k hk v => ?_, fun a _ ha => hz a ha⟩
  refine ⟨fun h _ => ?_, fun h => ?_, fun h => ?_⟩
  · rw [hz _ (by omega) v h]; exact ⟨rfl, rfl⟩
  · rw [hz _ (by omega) v h]; rfl
  · rw [hz _ (by omega) v h]; rfl

theorem eccBufSound_eccCleared (s : State) : EccBufSound (eccCleared s) := by
  refine eccBufSound_of_zeros fun a ha v h => ?_
  rw [eccCleared_read, if_pos ha] at h
  exact (Option.some.inj h).symm

theorem eccBufSound_resetBlock (s : State) : EccBufSound (resetBlock s) :=
  eccBufSound_of_zeros fun a _ _ h => nomatch (Memory.read_nil a).symm.trans h

theorem Effect.eccBufSound (he : Effect i s t) (hs : EccBufSound s) (ha : AccumulatorsSound s)
    (ht : TablesSound s) : EccBufSound t := by
  cases i <;> simp only [Effect] at he
  case tbuild | poppar | cpmgen => subst he; exact eccBufSound_congr hs rfl rfl
  case ptlkp | cpmlkp | qinit => obtain ⟨-, rfl⟩ := he; exact eccBufSound_congr hs rfl rfl
  case qbyte => obtain ⟨-, -, -, rfl⟩ := he; exact eccBufSound_congr hs rfl rfl
  case qemit => obtain ⟨-, -, rfl⟩ := he; exact eccBufSound_congr (eccBufSound_emitGroup hs ha) rfl rfl
  case eclr => subst he; exact eccBufSound_eccCleared s
  case epage => obtain ⟨htb, -, page, -, rfl⟩ := he; exact eccBufSound_encodePage page hs (ht htb)

theorem act_keeps_eccBufSound {x : HostAction} (hs : EccBufSound s) (ha : AccumulatorsSound s) (ht : TablesSound s)
    (h : act x s = .next t) : EccBufSound t := by
  cases act_result h with
  | reset _ e => rw [e]; exact eccBufSound_resetBlock s
  | effect i _ _ he => exact he.eccBufSound hs ha ht
  | pageWrite _ _ _ _ e => rw [e]; exact eccBufSound_congr hs rfl rfl
  | quiet hq => obtain ⟨e, -⟩ := hq; rw [e]; exact eccBufSound_congr hs rfl rfl

/-! ## The encoder's checks (60_exceptions R175) -/

theorem exec_qinit_of_busy (q : BitVec 2) (hf : s.fault = .noFault) (hq : s.qopen = true) :
    exec (.qinit q) s = .next { s with fault := .quarterBusy } := by
  simp only [exec, execQinit, unlessFaulted_of_noFault _ hf, if_pos hq, raise_of_noFault _ hf]

theorem exec_qbyte_of_closed (d : Byte) (hf : s.fault = .noFault) (htb : s.tb = true) (hq : s.qopen = false) :
    exec (.qbyte d) s = .next { s with fault := .quarterNotOpen } := by
  simp only [exec, execQbyte, unlessFaulted_of_noFault _ hf, htb, Bool.true_eq_false, if_false, if_pos hq,
    raise_of_noFault _ hf]

theorem exec_qbyte_of_full (d : Byte) (hf : s.fault = .noFault) (htb : s.tb = true) (hq : s.qopen = true)
    (hj : s.j = 128) : exec (.qbyte d) s = .next { s with fault := .quarterOverflow } := by
  simp only [exec, execQbyte, unlessFaulted_of_noFault _ hf, htb, hq, Bool.true_eq_false, if_false, if_pos hj,
    raise_of_noFault _ hf]

theorem exec_qemit_of_closed (hf : s.fault = .noFault) (hq : s.qopen = false) :
    exec .qemit s = .next { s with fault := .quarterNotOpen } := by
  simp only [exec, execQemit, unlessFaulted_of_noFault _ hf, if_pos hq, raise_of_noFault _ hf]

theorem exec_qemit_of_incomplete (hf : s.fault = .noFault) (hq : s.qopen = true) (hj : s.j < 128) :
    exec .qemit s = .next { s with fault := .quarterIncomplete } := by
  simp only [exec, execQemit, unlessFaulted_of_noFault _ hf, hq, Bool.true_eq_false, if_false, if_pos hj,
    raise_of_noFault _ hf]

/-! ## STATUS of a quarter just opened (10_state R31) -/

theorem status_opened (hj : s.j = 0) (hf : s.fault = .noFault) (hq : s.qopen = true) :
    status s = 0x0002 ||| (s.q.setWidth 16 <<< 2) ||| (if s.tb then 0x0001 else 0x0000) := by
  rw [status, hj, hf, hq]
  generalize s.q = q, s.tb = tb
  revert q tb
  decide

/-! ## Sequences of encoder commands (41_ecc R137) -/

theorem execAll_append {is js : List Instr} (h : execAll is s = .next t) : execAll (is ++ js) s = execAll js t := by
  induction is generalizing s with
  | nil => cases h; rfl
  | cons i is ih =>
    obtain ⟨u, hu⟩ := exec_total i s
    rw [execAll_cons _ hu] at h
    rw [List.cons_append, execAll_cons _ hu, ih h]

/-- QBYTEs that J has room for accumulate their bytes. -/
theorem execAll_qbytes (hf : s.fault = .noFault) (htb : s.tb = true) (hq : s.qopen = true)
    (hj : s.j.toNat + bs.length ≤ 128) : execAll (bs.map .qbyte) s = .next (bs.foldl accumulate s) := by
  induction bs generalizing s with
  | nil => rfl
  | cons b bs ih =>
    rw [List.length_cons] at hj
    have hne : s.j ≠ 128 := by bv_omega
    have hstep : exec (.qbyte b) s = .next (accumulate s b) := exec_of_effect hf ⟨htb, hq, hne, rfl⟩
    rw [List.map_cons, execAll_cons _ hstep]
    exact ih hf htb hq (by rw [accumulate_j]; bv_omega)

/-- Accumulating neither asks nor changes QOPEN. -/
theorem foldl_accumulate_setQopen (bs : List Byte) (s : State) (o : Bool) :
    bs.foldl accumulate { s with qopen := o } = { bs.foldl accumulate s with qopen := o } := by
  induction bs generalizing s with
  | nil => rfl
  | cons b bs ih => exact ih (accumulate s b)

/-- An open quarter `q` that has taken the bytes `bs`. -/
def fedQuarter (q : BitVec 2) (bs : List Byte) (s : State) : State :=
  { bs.foldl accumulate (seedQuarter q s) with qopen := true }

theorem execAll_qinit_qbytes (q : BitVec 2) (hs : QuarterReady s) (hl : bs.length ≤ 128) :
    execAll (.qinit q :: bs.map .qbyte) s = .next (fedQuarter q bs s) := by
  obtain ⟨hf, htb, hq⟩ := hs
  have hinit : exec (.qinit q) s = .next { seedQuarter q s with qopen := true } := exec_of_effect hf ⟨hq, rfl⟩
  rw [execAll_cons _ hinit, fedQuarter, ← foldl_accumulate_setQopen]
  exact execAll_qbytes (s := { seedQuarter q s with qopen := true }) hf htb rfl (by simpa using hl)

theorem fedQuarter_j (q : BitVec 2) (bs : List Byte) (s : State) : (fedQuarter q bs s).j = BitVec.ofNat 8 bs.length :=
  foldl_seed_j bs q s

/-- The quarter `q` with the bytes `bs`, from its seeds to its group: what `encodeQuarter` does with the bytes it cuts
out of the page. -/
def encodeBytes (q : BitVec 2) (bs : List Byte) (s : State) : State :=
  emitGroup (bs.foldl accumulate (seedQuarter q s))

/-- The bytes of quarter `q` of a page (41_ecc R130). -/
def pageQuarter (page : List Byte) (q : BitVec 2) : List Byte :=
  (page.drop (quarterBytes * q.toNat)).take quarterBytes

theorem encodeQuarter_eq_encodeBytes (page : List Byte) (s : State) (q : BitVec 2) :
    encodeQuarter page s q = encodeBytes q (pageQuarter page q) s := rfl

/-- QINIT, 128 QBYTEs and QEMIT. -/
theorem execAll_quarterCommands (q : BitVec 2) (hs : QuarterReady s) (hl : bs.length = 128) :
    execAll (quarterCommands q bs) s = .next (encodeBytes q bs s) := by
  have hfed := execAll_qinit_qbytes q hs hl.le
  obtain ⟨hf, htb, hq⟩ := hs
  have hfed_fault : (fedQuarter q bs s).fault = .noFault := (foldl_accumulate_fault bs _).trans hf
  have hj : ¬ (fedQuarter q bs s).j < 128 := by rw [fedQuarter_j, hl]; decide
  have hemit : exec .qemit (fedQuarter q bs s) = .next (encodeBytes q bs s) := by
    rw [exec_of_effect (i := .qemit) hfed_fault ⟨rfl, hj, rfl⟩]
    have hclosed : (encodeBytes q bs s).qopen = false := (foldl_accumulate_qopen bs _).trans hq
    exact congrArg _ (show { encodeBytes q bs s with qopen := false } = encodeBytes q bs s by rw [← hclosed])
  rw [quarterCommands, ← List.cons_append, execAll_append hfed, execAll_cons _ hemit]
  rfl

/-! ## The group of a quarter in closed form (41_ecc R137) -/

theorem holdsGroup_congr (h : HoldsGroup s k bs m) (hcfg : t.cfg = s.cfg) (hpt : t.pt = s.pt)
    (hcpmt : t.cpmt = s.cpmt) (hm : ∀ a, 3 * k ≤ a → a ≤ 3 * k + 2 → m'.read a = m.read a) : HoldsGroup t k bs m' := by
  unfold HoldsGroup
  rw [hcfg, hpt, hcpmt, hm _ (by omega) (by omega), hm _ (by omega) (by omega), hm _ (by omega) (by omega)]
  exact h

/-- Masked to seven bits, LP0 is LP1 or its complement by the parity of `|O|`. -/
theorem foldl_seed_lp0_masked (q : BitVec 2) (s : State) (hl : bs.length ≤ 128) :
    (bs.foldl accumulate (seedQuarter q s)).lp0 &&& lp0OutputMask =
      if (oddOffsets s.pt bs).length % 2 = 0 then 0x7F ^^^ lineXor s.cfg.lpIndex q.toNat s.pt bs
      else lineXor s.cfg.lpIndex q.toNat s.pt bs := by
  have h7 : (lineXor s.cfg.lpIndex q.toNat s.pt bs).getLsbD 7 = false := getLsbD_lineXor_seven q hl
  rw [foldl_seed_lp0, foldl_seed_lp1]
  generalize lineXor s.cfg.lpIndex q.toNat s.pt bs = x at h7 ⊢
  have hmask : ∀ x : Byte, x.getLsbD 7 = false →
      (0x7F ^^^ x) &&& lp0OutputMask = 0x7F ^^^ x ∧ ~~~(0x7F ^^^ x) &&& lp0OutputMask = x := by decide
  obtain ⟨heven, hodd⟩ := hmask x h7
  split
  · exact heven
  · exact hodd

theorem holdsGroup_encodeBytes (q : BitVec 2) (s : State) (hne : bs ≠ []) (hl : bs.length ≤ 128) :
    HoldsGroup s q.toNat bs (encodeBytes q bs s).eccBuf := by
  have hq : (bs.foldl accumulate (seedQuarter q s)).q = q := foldl_accumulate_q bs _
  refine ⟨⟨columnByte (bs.foldl accumulate (seedQuarter q s)), ?_, ?_⟩, ?_, ?_⟩
  · rw [encodeBytes, emitGroup_read_column, hq, if_pos rfl]
  · rw [columnByte_eq, foldl_accumulate_cfg, seedQuarter_cfg]
    split
    · next hm => rw [hm]; trivial
    · exact foldl_seed_cp q s hne
  · rw [encodeBytes, emitGroup_read_line0, hq, if_pos rfl, foldl_seed_lp0_masked q s hl]
  · rw [encodeBytes, emitGroup_read_line1, hq, if_pos rfl, foldl_seed_lp1]

/-- Outside UNCONSTRAINED the closed form fixes the column byte. -/
theorem isColumnByte_unique (hm : mode ≠ .unconstrained) (h : IsColumnByte mode cpmt bs e)
    (h' : IsColumnByte mode cpmt bs e') : e = e' := by
  cases mode with
  | cumulative => exact Eq.trans h (Eq.symm h')
  | shadowSeed => exact Eq.trans h (Eq.symm h')
  | shadowLast =>
    obtain ⟨b, hb, rfl⟩ := h
    obtain ⟨b', hb', rfl⟩ := h'
    rw [Option.some.inj (hb.symm.trans hb')]
  | unconstrained => exact absurd rfl hm

theorem holdsGroup_column_unique (hm : s.cfg.cpMode ≠ .unconstrained) (h : HoldsGroup s k bs m)
    (h' : HoldsGroup s k bs m') : m.read (3 * k) = m'.read (3 * k) := by
  obtain ⟨⟨e, he, hcol⟩, -⟩ := h
  obtain ⟨⟨e', he', hcol'⟩, -⟩ := h'
  rw [he, he', isColumnByte_unique hm hcol hcol']

theorem holdsGroup_lines_unique (h : HoldsGroup s k bs m) (h' : HoldsGroup s k bs m') :
    m.read (3 * k + 1) = m'.read (3 * k + 1) ∧ m.read (3 * k + 2) = m'.read (3 * k + 2) := by
  obtain ⟨-, h0, h1⟩ := h
  obtain ⟨-, h0', h1'⟩ := h'
  exact ⟨h0.trans h0'.symm, h1.trans h1'.symm⟩

theorem holdsGroup_read_unique (hm : s.cfg.cpMode ≠ .unconstrained) (h : HoldsGroup s k bs m)
    (h' : HoldsGroup s k bs m') (hlo : 3 * k ≤ a) (hhi : a ≤ 3 * k + 2) : m.read a = m'.read a := by
  obtain ⟨h0, h1⟩ := holdsGroup_lines_unique h h'
  obtain rfl | rfl | rfl : a = 3 * k ∨ a = 3 * k + 1 ∨ a = 3 * k + 2 := by omega
  · exact holdsGroup_column_unique hm h h'
  · exact h0
  · exact h1

/-! ## The four groups of a page (41_ecc R143) -/

theorem length_pageQuarter (hlen : page.length = 512) (q : BitVec 2) : (pageQuarter page q).length = 128 := by
  have := q.isLt
  rw [pageQuarter, List.length_take, List.length_drop, hlen, quarterBytes]
  omega

theorem foldl_encodeQuarter_config (page : List Byte) (qs : List (BitVec 2)) (s : State) :
    (qs.foldl (encodeQuarter page) s).cfg = s.cfg ∧ (qs.foldl (encodeQuarter page) s).pt = s.pt ∧
      (qs.foldl (encodeQuarter page) s).cpmt = s.cpmt := by
  induction qs generalizing s with
  | nil => exact ⟨rfl, rfl, rfl⟩
  | cons q qs ih =>
    have h := ih (encodeQuarter page s q)
    simpa only [List.foldl_cons, encodeQuarter_cfg, encodeQuarter_pt, encodeQuarter_cpmt] using h

/-- A pass over some quarters, each stored to its own group, leaves the groups of them all. -/
theorem holdsGroup_foldl_encodeQuarter (hlen : page.length = 512) {q : BitVec 2} {qs : List (BitVec 2)} (hq : q ∈ qs)
    (s : State) : HoldsGroup s q.toNat (pageQuarter page q) (qs.foldl (encodeQuarter page) s).eccBuf := by
  induction qs using List.reverseRecOn with
  | nil => cases hq
  | append_singleton qs q' ih =>
    rw [List.foldl_concat]
    by_cases hqq : q' = q
    · subst hqq
      obtain ⟨hcfg, hpt, hcpmt⟩ := foldl_encodeQuarter_config page qs s
      have hl := length_pageQuarter hlen q'
      have hne : pageQuarter page q' ≠ [] := List.ne_nil_of_length_pos (by omega)
      exact holdsGroup_congr (holdsGroup_encodeBytes q' _ hne hl.le) hcfg.symm hpt.symm hcpmt.symm fun _ _ _ => rfl
    · have hmem : q ∈ qs := (List.mem_append.mp hq).resolve_right fun h => hqq (List.mem_singleton.mp h).symm
      have hne : q.toNat ≠ q'.toNat := fun h => hqq (BitVec.eq_of_toNat_eq h.symm)
      exact holdsGroup_congr (ih hmem) rfl rfl rfl fun a hlo hhi =>
        encodeQuarter_read_of_ne page _ q' (not_mem_group_of_ne hne hlo hhi)

theorem holdsGroup_encodePage (hlen : page.length = 512) (q : BitVec 2) (s : State) :
    HoldsGroup s q.toNat (pageQuarter page q) (encodePage page s).eccBuf :=
  holdsGroup_foldl_encodeQuarter hlen (by revert q; decide) s

theorem encodeQuarter_draws (page : List Byte) (s : State) (q : BitVec 2) : (encodeQuarter page s q).draws =
    if s.cfg.cpMode = .unconstrained then s.draws + 1 else s.draws := by
  rw [encodeQuarter, emitGroup_draws, drawsAfterEmit_eq, foldl_accumulate_cfg, foldl_accumulate_draws]
  rfl

theorem encodePage_draws (page : List Byte) (s : State) :
    (encodePage page s).draws = if s.cfg.cpMode = .unconstrained then s.draws + 4 else s.draws := by
  simp only [encodePage, List.foldl_cons, List.foldl_nil, encodeQuarter_draws, encodeQuarter_cfg]
  split <;> rfl

/-- CP, LP0 and LP1 are left as the last quarter's group was emitted from them. -/
theorem encodePage_last_group (page : List Byte) (s : State) :
    (encodePage page s).eccBuf.read 10 = some ((encodePage page s).lp0 &&& 0x7F) ∧
      (encodePage page s).eccBuf.read 11 = some (encodePage page s).lp1 ∧
      (s.cfg.cpMode ≠ .unconstrained → (encodePage page s).eccBuf.read 9 = some (encodePage page s).cp) := by
  obtain ⟨u, hu, hq, hcfg⟩ : ∃ u, encodePage page s = emitGroup u ∧ u.q = 3 ∧ u.cfg = s.cfg :=
    ⟨_, rfl, foldl_accumulate_q _ _, by simp⟩
  rw [hu]
  refine ⟨?_, ?_, fun hm => ?_⟩
  · exact (emitGroup_read_line0 u 3).trans (if_pos (by rw [hq]; rfl))
  · exact (emitGroup_read_line1 u 3).trans (if_pos (by rw [hq]; rfl))
  · rw [← hcfg] at hm
    refine (emitGroup_read_column u 3).trans ((if_pos (by rw [hq]; rfl)).trans ?_)
    rw [columnByte_eq, if_neg hm, emitGroup_cp]

/-- The commands of some quarters, given the bytes of each, do what the passes over them do (41_ecc R144). -/
theorem execAll_flatMap_quarterCommands {bytes : Nat → List Byte} (ks : List Nat) (hs : QuarterReady s)
    (hbytes : ∀ k ∈ ks, bytes k = pageQuarter page (BitVec.ofNat 2 k) ∧ (bytes k).length = 128) :
    execAll (ks.flatMap fun k => quarterCommands (BitVec.ofNat 2 k) (bytes k)) s =
      .next ((ks.map (BitVec.ofNat 2)).foldl (encodeQuarter page) s) := by
  induction ks generalizing s with
  | nil => rfl
  | cons k ks ih =>
    obtain ⟨hpage, hl⟩ := hbytes k List.mem_cons_self
    have hstep : execAll (quarterCommands (BitVec.ofNat 2 k) (bytes k)) s =
        .next (encodeQuarter page s (BitVec.ofNat 2 k)) := by
      rw [encodeQuarter_eq_encodeBytes, ← hpage]
      exact execAll_quarterCommands _ hs hl
    rw [List.flatMap_cons, execAll_append hstep]
    refine ih ?_ fun k hk => hbytes k (List.mem_cons_of_mem _ hk)
    simpa only [QuarterReady, encodeQuarter_fault, encodeQuarter_tb, encodeQuarter_qopen] using hs

/-! ## EPAGE from a state ready for it -/

theorem length_quarterOf (s : State) (k : Nat) : (quarterOf s k).length = 128 := by
  rw [quarterOf, List.length_map, List.length_range]

theorem getElem?_quarterOf (s : State) (hj : j < 128) :
    (quarterOf s k)[j]? = some ((s.pageBuf.read (128 * k + j)).getD 0) := by
  rw [quarterOf, List.getElem?_map, List.getElem?_range hj, Option.map_some]

/-- The quarters of the page that EPAGE reads. -/
theorem quarterOf_eq_pageQuarter (h : s.pageBuf.readRun 0 pageBytes = some page) (q : BitVec 2) :
    quarterOf s q.toNat = pageQuarter page q := by
  apply List.ext_getElem?
  intro j
  have hq := q.isLt
  by_cases hj : j < 128
  · have hread : s.pageBuf.read (128 * q.toNat + j) = page[128 * q.toNat + j]? := by
      rw [← Memory.readRun_getElem h (show 128 * q.toNat + j < 512 by omega), Nat.zero_add]
    have hlt : 128 * q.toNat + j < page.length := by rw [Memory.readRun_length h, pageBytes]; omega
    rw [getElem?_quarterOf s hj, hread, pageQuarter, quarterBytes, List.getElem?_take_of_lt hj, List.getElem?_drop,
      List.getElem?_eq_getElem hlt, Option.getD_some]
  · rw [List.getElem?_eq_none (by rw [length_quarterOf]; omega),
      List.getElem?_eq_none (by rw [length_pageQuarter (Memory.readRun_length h)]; omega)]

/-- EPAGE completes, with the page its buffer holds. -/
theorem exec_epage_of_ready (hs : EpageReady s) :
    ∃ page, exec .epage s = .next (encodePage page s) ∧ page.length = 512 ∧
      ∀ q : BitVec 2, quarterOf s q.toNat = pageQuarter page q := by
  obtain ⟨hf, htb, hq, hread⟩ := hs
  have hsome : (s.pageBuf.readRun 0 pageBytes).isSome :=
    (Memory.readRun_isSome _ _ _).mpr fun k hk => by rw [Nat.zero_add]; exact hread k hk
  obtain ⟨page, hp⟩ := Option.isSome_iff_exists.mp hsome
  exact ⟨page, exec_epage_of_run hf htb hq hp, Memory.readRun_length hp, quarterOf_eq_pageQuarter hp⟩

/-- What EPAGE leaves in ECCBUF: the four groups, and the bytes from 12 on as they were. -/
structure PageEncoded (s t : State) : Prop where
  groups : ∀ k < 4, HoldsGroup s k (quarterOf s k) t.eccBuf
  tail : ∀ a, 12 ≤ a → t.eccBuf.read a = s.eccBuf.read a

theorem exec_epage_encodes (hs : EpageReady s) : ∃ t, exec .epage s = .next t ∧ PageEncoded s t := by
  obtain ⟨page, he, hlen, hquarter⟩ := exec_epage_of_ready hs
  refine ⟨_, he, fun k hk => ?_, fun a ha => encodePage_read_of_le page s ha⟩
  have hgroup := holdsGroup_encodePage hlen (BitVec.ofNat 2 k) s
  have hk2 : (BitVec.ofNat 2 k).toNat = k := Nat.mod_eq_of_lt hk
  rwa [← hquarter, hk2] at hgroup

/-- The groups are the same whatever ECCBUF held. -/
theorem exec_epage_encodes_of_eccBuf (hs : EpageReady s) (m : Memory) :
    ∃ t, exec .epage { s with eccBuf := m } = .next t ∧ (∀ k < 4, HoldsGroup s k (quarterOf s k) t.eccBuf) ∧
      ∀ a, 12 ≤ a → t.eccBuf.read a = m.read a := by
  obtain ⟨t, he, hgroups, htail⟩ := exec_epage_encodes (s := { s with eccBuf := m }) hs
  exact ⟨t, he, hgroups, htail⟩

/-! ## QBYTE in the words of its rules (41_ecc R132 to R135) -/

theorem cpStep_eq (mode : CpMode) (cpmt : Vector Byte 256) (cp d : Byte) : cpStep mode cpmt cp d =
    if mode = .cumulative then cp ^^^ cpmtAt cpmt d else if mode = .shadowLast then 0x77 ^^^ cpmtAt cpmt d else cp := by
  cases mode <;> rfl

theorem accumulate_eq (s : State) (d : Byte) :
    let x := if s.cfg.lpIndex = .byteOffset then s.j else BitVec.ofNat 8 s.q.toNat
    accumulate s d = { s with
      cp :=
        if s.cfg.cpMode = .cumulative then s.cp ^^^ cpmtAt s.cpmt d
        else if s.cfg.cpMode = .shadowLast then 0x77 ^^^ cpmtAt s.cpmt d
        else s.cp
      lp0 := if ptAt s.pt d = 1 then s.lp0 ^^^ (0xFF ^^^ x) else s.lp0
      lp1 := if ptAt s.pt d = 1 then s.lp1 ^^^ x else s.lp1
      j := BitVec.ofNat 8 (s.j.toNat + 1) } := by
  intro x
  have hx : lineIndex s.cfg.lpIndex s.j s.q = x := lineIndex_eq ..
  have hnot : ~~~x = 0xFF ^^^ x := BitVec.allOnes_xor.symm
  have hj : s.j + 1 = BitVec.ofNat 8 (s.j.toNat + 1) := by bv_omega
  rw [← cpStep_eq, ← hnot, ← hj, ← hx]
  rfl

/-! ## Built tables -/

theorem pt_eq_of_tablesBuilt (hs : TablesBuilt s) (ht : TablesBuilt t) : s.pt = t.pt := by
  apply Vector.ext
  intro i hi
  have h : ptAt s.pt (BitVec.ofNat 8 i) = ptAt t.pt (BitVec.ofNat 8 i) := (hs _).1.trans (ht _).1.symm
  simpa only [ptAt, BitVec.toNat_ofNat, Nat.mod_eq_of_lt hi] using h

theorem cpmt_eq_of_tablesBuilt (hs : TablesBuilt s) (ht : TablesBuilt t) : s.cpmt = t.cpmt := by
  apply Vector.ext
  intro i hi
  have h : cpmtAt s.cpmt (BitVec.ofNat 8 i) = cpmtAt t.cpmt (BitVec.ofNat 8 i) := (hs _).2.trans (ht _).2.symm
  simpa only [cpmtAt, BitVec.toNat_ofNat, Nat.mod_eq_of_lt hi] using h

/-! ## A quarter of bytes with an empty mask (41_ecc R138) -/

theorem isColumnByte_of_empty (hm : mode ≠ .unconstrained) (he : ∀ b ∈ bs, cpmtAt cpmt b = 0)
    (h : IsColumnByte mode cpmt bs e) : e = 0x77 := by
  cases mode with
  | cumulative =>
    have hz : (bs.map (cpmtAt cpmt)).foldr (· ^^^ ·) 0 = 0 := foldr_xor_of_forall_zero (by simpa using he)
    have h : e = 0x77 ^^^ (bs.map (cpmtAt cpmt)).foldr (· ^^^ ·) 0 := h
    rw [h, hz]
    rfl
  | shadowSeed => exact h
  | shadowLast =>
    obtain ⟨b, hb, rfl⟩ := h
    rw [he b (List.mem_of_getLast? hb)]
    rfl
  | unconstrained => exact absurd rfl hm

theorem oddOffsets_eq_nil (he : ∀ b ∈ bs, ptAt pt b = 0) : oddOffsets pt bs = [] := by
  induction bs with
  | nil => rfl
  | cons b bs ih =>
    have hb : ¬ ptAt pt b = 1 := by rw [he b List.mem_cons_self]; decide
    rw [oddOffsets_cons, ih fun c hc => he c (List.mem_cons_of_mem _ hc), ownOffset, if_neg hb]
    rfl

theorem holdsGroup_of_empty (ht : TablesBuilt s) (hm : s.cfg.cpMode ≠ .unconstrained)
    (he : ∀ b ∈ bs, cpmtAt s.cpmt b = 0) (h : HoldsGroup s k bs m) :
    m.read (3 * k) = some 0x77 ∧ m.read (3 * k + 1) = some 0x7F ∧ m.read (3 * k + 2) = some 0x7F := by
  obtain ⟨⟨e, hread, hcol⟩, h0, h1⟩ := h
  have hodd : oddOffsets s.pt bs = [] := oddOffsets_eq_nil fun b hb =>
    (ht b).1.trans (parity_of_columnParityMask_eq_zero ((ht b).2.symm.trans (he b hb)))
  have hx : lineXor s.cfg.lpIndex k s.pt bs = 0 := by rw [lineXor, hodd]; rfl
  rw [hx, hodd] at h0
  rw [hx] at h1
  exact ⟨hread.trans (congrArg _ (isColumnByte_of_empty hm he hcol)), h0, h1⟩

/-- The sixteen bytes of the golden block, group by group and the tail. -/
theorem map_read_golden
    (hgroups : ∀ k < 4, m.read (3 * k) = some 0x77 ∧ m.read (3 * k + 1) = some 0x7F ∧ m.read (3 * k + 2) = some 0x7F)
    (htail : ∀ a, 12 ≤ a → a < 16 → m.read a = some 0x00) :
    (List.range 16).map m.read =
      [some 0x77, some 0x7F, some 0x7F, some 0x77, some 0x7F, some 0x7F, some 0x77, some 0x7F, some 0x7F,
       some 0x77, some 0x7F, some 0x7F, some 0x00, some 0x00, some 0x00, some 0x00] := by
  obtain ⟨h0, h1, h2⟩ := hgroups 0 (by decide)
  obtain ⟨h3, h4, h5⟩ := hgroups 1 (by decide)
  obtain ⟨h6, h7, h8⟩ := hgroups 2 (by decide)
  obtain ⟨h9, h10, h11⟩ := hgroups 3 (by decide)
  have hrange : List.range 16 = [0, 1, 2, 3, 4, 5, 6, 7, 8, 9, 10, 11, 12, 13, 14, 15] := by decide
  simp only [Nat.reduceMul, Nat.reduceAdd] at h0 h1 h2 h3 h4 h5 h6 h7 h8 h9 h10 h11
  simp only [hrange, List.map_cons, List.map_nil, h0, h1, h2, h3, h4, h5, h6, h7, h8, h9, h10, h11,
    htail 12 (by decide) (by decide), htail 13 (by decide) (by decide), htail 14 (by decide) (by decide),
    htail 15 (by decide) (by decide)]

/-! ## One bit of a quarter flipped (41_ecc R140) -/

/-- The byte of one bit. -/
def oneBit (k : Nat) : Byte := BitVec.ofNat 8 (1 <<< k)

/-- Its mask, by 40_tables R104. -/
def oneBitMask (k : Nat) : Byte := BitVec.ofNat 8 ((k <<< 4) ||| (7 ^^^ k))

theorem parityFlips_oneBit (hpt : ∀ b, ptAt pt b = parity b) (hk : k < 8) (b : Byte) :
    ParityFlips pt (b ^^^ oneBit k) b := by
  have hone : ∀ k < 8, parity (oneBit k) = 1 := by decide
  rw [ParityFlips, hpt, hpt, parity_xor, hone k hk]
  rcases BitVec.eq_zero_or_eq_one (parity b) with h | h <;> rw [h] <;> decide

theorem cpmtAt_oneBit (hc : ∀ b, cpmtAt cpmt b = columnParityMask b) (hk : k < 8) (b : Byte) :
    cpmtAt cpmt (b ^^^ oneBit k) = cpmtAt cpmt b ^^^ oneBitMask k := by
  have hone : ∀ k < 8, columnParityMask (oneBit k) = oneBitMask k := by decide
  rw [hc, hc, columnParityMask_xor, hone k hk]

theorem isColumnByte_flip_cumulative (hf : cpmtAt cpmt v = cpmtAt cpmt w ^^^ x) (hj : j < bs.length)
    (h : IsColumnByte .cumulative cpmt (bs.set j w) e) (h' : IsColumnByte .cumulative cpmt (bs.set j v) e') :
    e' = e ^^^ x := by
  have h : e = 0x77 ^^^ ((bs.set j w).map (cpmtAt cpmt)).foldr (· ^^^ ·) 0 := h
  have h' : e' = 0x77 ^^^ ((bs.set j v).map (cpmtAt cpmt)).foldr (· ^^^ ·) 0 := h'
  have hx : cpmtAt cpmt v ^^^ cpmtAt cpmt w = x := by
    rw [hf, BitVec.xor_comm, ← BitVec.xor_assoc, BitVec.xor_self, BitVec.zero_xor]
  rw [h, h', List.map_set, List.map_set, foldr_xor_set (by simpa using hj) (cpmtAt cpmt v) (cpmtAt cpmt w), hx,
    BitVec.xor_assoc]

theorem isColumnByte_flip_shadowLast (hf : cpmtAt cpmt v = cpmtAt cpmt w ^^^ x) (hj : j < bs.length)
    (h : IsColumnByte .shadowLast cpmt (bs.set j w) e) (h' : IsColumnByte .shadowLast cpmt (bs.set j v) e') :
    e' = if j = bs.length - 1 then e ^^^ x else e := by
  obtain ⟨b, hb, rfl⟩ := h
  obtain ⟨b', hb', rfl⟩ := h'
  rw [List.getLast?_eq_getElem?, List.length_set, List.getElem?_set] at hb hb'
  by_cases hlast : j = bs.length - 1
  · rw [if_pos hlast, if_pos hj] at hb hb'
    rw [if_pos hlast, ← Option.some.inj hb, ← Option.some.inj hb', hf, BitVec.xor_assoc]
  · rw [if_neg hlast] at hb hb'
    rw [if_neg hlast, Option.some.inj (hb.symm.trans hb')]

/-- The line bytes of a group before and after one byte of the quarter flips its parity. -/
theorem holdsGroup_lines_flip {e1 e2 : Byte} (hp : ParityFlips s.pt v w) (hj : j < bs.length)
    (h : HoldsGroup s k (bs.set j w) m) (h' : HoldsGroup s k (bs.set j v) m')
    (h1 : m.read (3 * k + 1) = some e1) (h2 : m.read (3 * k + 2) = some e2) :
    m'.read (3 * k + 1) = some (e1 ^^^ (0x7F ^^^ lineIdx s.cfg.lpIndex k j)) ∧
      m'.read (3 * k + 2) = some (e2 ^^^ lineIdx s.cfg.lpIndex k j) := by
  obtain ⟨-, hline0, hline1⟩ := h
  obtain ⟨-, hline0', hline1'⟩ := h'
  have he1 := Option.some.inj (h1.symm.trans hline0)
  have he2 := Option.some.inj (h2.symm.trans hline1)
  rw [lineXor_set k hj hp] at hline0' hline1'
  rw [hline0', hline1', he1, he2]
  generalize lineXor s.cfg.lpIndex k s.pt (bs.set j w) = y
  generalize lineIdx s.cfg.lpIndex k j = i
  refine ⟨congrArg some ?_, congrArg some (BitVec.xor_assoc ..).symm⟩
  have hlen := length_oddOffsets_set hj hp
  by_cases hw : (oddOffsets s.pt (bs.set j w)).length % 2 = 0
  · rw [if_pos hw, if_neg fun hv => hlen.mp hv hw]
    calc y ^^^ i = (0x7F ^^^ 0x7F) ^^^ (y ^^^ i) := BitVec.zero_xor.symm
      _ = (0x7F ^^^ y) ^^^ (0x7F ^^^ i) := by ac_rfl
  · rw [if_neg hw, if_pos (hlen.mpr hw)]
    ac_rfl

theorem quarterOf_setPage_same (s : State) (k : Nat) (hj : j < 128) (v : Byte) :
    quarterOf { s with pageBuf := s.pageBuf.write (128 * k + j) v } k = (quarterOf s k).set j v := by
  apply List.ext_getElem?
  intro i
  rw [List.getElem?_set, length_quarterOf]
  by_cases hi : i < 128
  · rw [getElem?_quarterOf _ hi, getElem?_quarterOf _ hi, Memory.read_write]
    by_cases hij : j = i
    · rw [if_pos (by omega), if_pos hij, if_pos hj]; rfl
    · rw [if_neg (by omega), if_neg hij]
  · rw [List.getElem?_eq_none (by rw [length_quarterOf]; omega), if_neg (by omega),
      List.getElem?_eq_none (by rw [length_quarterOf]; omega)]

theorem quarterOf_set_self (hj : j < 128) (hb : s.pageBuf.read (128 * k + j) = some b) :
    (quarterOf s k).set j b = quarterOf s k := by
  have hlen : j < (quarterOf s k).length := by rwa [length_quarterOf]
  have hbyte : (quarterOf s k)[j] = b := by
    have h := getElem?_quarterOf s hj (k := k)
    rw [hb, List.getElem?_eq_getElem hlen] at h
    exact Option.some.inj h
  rw [← hbyte, List.set_getElem_self]

theorem quarterOf_setPage_of_ne (s : State) {k' : Nat} (hk : k' ≠ k) (hj : j < 128) (v : Byte) :
    quarterOf { s with pageBuf := s.pageBuf.write (128 * k + j) v } k' = quarterOf s k' := by
  refine List.map_congr_left fun i hi => ?_
  have hi : i < 128 := List.mem_range.mp hi
  exact congrArg (·.getD 0) (Memory.read_write_of_ne (show 128 * k' + i ≠ 128 * k + j by omega))

/-- Two pages that differ in quarter `k` alone have the same bytes outside its group (41_ecc R141). -/
theorem PageEncoded.read_elsewhere (hm : s.cfg.cpMode ≠ .unconstrained) (hj : j < 128) (h : PageEncoded s t)
    (h' : PageEncoded { s with pageBuf := s.pageBuf.write (128 * k + j) v } t') (ha : a < 3 * k ∨ 3 * k + 2 < a) :
    t'.eccBuf.read a = t.eccBuf.read a := by
  by_cases h12 : 12 ≤ a
  · exact (h'.tail a h12).trans (h.tail a h12).symm
  · have hother : HoldsGroup s (a / 3) (quarterOf s (a / 3)) t'.eccBuf := by
      rw [← quarterOf_setPage_of_ne s (show a / 3 ≠ k by omega) hj]
      exact h'.groups (a / 3) (by omega)
    exact holdsGroup_read_unique hm hother (h.groups (a / 3) (by omega)) (by omega) (by omega)

theorem epageReady_setPage (hs : EpageReady s) (a : Nat) (v : Byte) :
    EpageReady { s with pageBuf := s.pageBuf.write a v } := by
  obtain ⟨hf, htb, hq, hread⟩ := hs
  refine ⟨hf, htb, hq, fun i hi => ?_⟩
  show ((s.pageBuf.write a v).read i).isSome = true
  rw [Memory.read_write]
  split
  · rfl
  · exact hread i hi

end Sys2Proof.Machine

namespace Sys2Proof.Proofs

open Sys2Proof Sys2Proof.Machine Sys2Proof.Safety Sys2Proof.Claims

/-! ## The zero bits of ECCBUF -/

/-- Settles O58: QEMIT stores sound accumulators, EPAGE the sound ones it seeds itself, and ECLR zeros. -/
theorem stepKeepsEccBufSound : Obligations.StepKeepsEccBufSound := by
  intro s t hs ha ht h
  rcases step_cases s with ⟨-, e⟩ | ⟨x, rest, -, e⟩ <;> rw [e] at h
  · cases h; exact hs
  · exact act_keeps_eccBufSound (s := { s with pending := rest }) hs ha ht h

/-! ## Pages and quarters -/

/-- Settles O37: the pass over the page, its frame and its last group. -/
theorem epageResult : Obligations.EpageResult := by
  refine ⟨rfl, fun s hs => ?_⟩
  obtain ⟨t, ht, hgroups, htail⟩ := exec_epage_encodes hs
  obtain ⟨page, he, hlen, -⟩ := exec_epage_of_ready hs
  obtain rfl : encodePage page s = t := Host.Outcome.next.inj (he.symm.trans ht)
  obtain ⟨h10, h11, h9⟩ := encodePage_last_group page s
  obtain ⟨-, -, hclosed, -⟩ := hs
  refine ⟨_, he, ?_, hgroups, htail, h10.symm, h11.symm, fun hm => (h9 hm).symm⟩
  rw [← encodePage_draws page s, ← hclosed, ← encodePage_q page s, ← encodePage_j page s hlen]
  exact encodePage_frame page s

/-- Settles O38: the closed form, by induction on the bytes from the seeds on; `X` cancels in `e1 ^ e2`. -/
theorem quarterGroupClosedForm : Obligations.QuarterGroupClosedForm := by
  intro s q bytes hs hl
  have hne : bytes ≠ [] := List.ne_nil_of_length_pos (by omega)
  have hgroup := holdsGroup_encodeBytes q s hne hl.le
  have ⟨_, hline0, hline1⟩ := hgroup
  refine ⟨_, _, _, execAll_quarterCommands q hs hl, hgroup, hline0, hline1, fun heven => ?_, fun hodd => ?_,
    fun hq => ?_, fun ht => length_oddOffsets_odd_iff (fun b => (ht b).1) bytes⟩
  · rw [if_pos heven]; exact BitVec.xor_self
  · rw [if_neg (by omega), BitVec.xor_comm, BitVec.xor_assoc, BitVec.xor_self]; exact BitVec.xor_zero
  · rw [hq]; exact lineXor_quarterIndex q.toNat s.pt bytes

/-- Settles O39: the commands of each quarter leave what the pass over that quarter leaves, ready for the next. -/
theorem epageEqualsItsCommandSequence : Obligations.EpageEqualsItsCommandSequence := by
  intro s hs
  obtain ⟨page, he, -, hquarter⟩ := exec_epage_of_ready hs
  obtain ⟨hf, htb, hq, -⟩ := hs
  have hpages : ∀ k < 4, quarterOf s k = pageQuarter page (BitVec.ofNat 2 k) := fun k hk => by
    rw [← hquarter, BitVec.toNat_ofNat, Nat.mod_eq_of_lt hk]
  rw [he]
  exact execAll_flatMap_quarterCommands [0, 1, 2, 3] ⟨hf, htb, hq⟩
    fun k hk => ⟨hpages k (by revert k; decide), length_quarterOf s k⟩

/-- Settles O40: empty masks add nothing to the seeds, and every byte of a page of zeros has an empty mask. -/
theorem goldenGroupAndBlock : Obligations.GoldenGroupAndBlock := by
  refine ⟨fun s q bytes hs ht hl hm he => ?_, fun s hs ht hm hzero => ?_⟩
  · have hne : bytes ≠ [] := List.ne_nil_of_length_pos (by omega)
    exact ⟨_, execAll_quarterCommands q hs hl,
      holdsGroup_of_empty ht hm he (holdsGroup_encodeBytes q s hne hl.le)⟩
  · obtain ⟨t, hepage, hgroups, htail⟩ := exec_epage_encodes_of_eccBuf hs (eccCleared s).eccBuf
    obtain ⟨hf, -⟩ := hs
    have hall : execAll [.eclr, .epage] s = .next t := by
      rw [← eccCleared_frame] at hepage
      exact (execAll_cons _ (exec_eclr_of_noFault hf)).trans (execAll_cons [] hepage)
    have hmask : ∀ k < 4, ∀ b ∈ quarterOf s k, cpmtAt s.cpmt b = 0 := by
      intro k hk b hb
      obtain ⟨j, hj, rfl⟩ := List.mem_map.mp hb
      have hj := List.mem_range.mp hj
      rw [hzero _ (by omega), Option.getD_some, (ht _).2]
      decide
    refine ⟨t, hall, map_read_golden (fun k hk => ?_) fun a h12 h16 => ?_⟩
    · exact holdsGroup_of_empty ht hm (hmask k hk) (hgroups k hk)
    · rw [htail a h12, eccCleared_read, if_pos h16]

/-- Settles O41: the page that differs in one byte differs in one quarter, there by the bit's mask and the byte's
index. -/
theorem singleBitLaw : Obligations.SingleBitLaw := by
  intro s q j k b hq hj hk hs ht hm hb mask x s'
  have hs' : EpageReady s' := epageReady_setPage hs _ _
  obtain ⟨t, he, henc⟩ := exec_epage_encodes hs
  obtain ⟨t', he', henc'⟩ := exec_epage_encodes hs'
  have hlen : j < (quarterOf s q).length := by rwa [length_quarterOf]
  have hgroup : HoldsGroup s q ((quarterOf s q).set j b) t.eccBuf := by
    rw [quarterOf_set_self hj hb]
    exact henc.groups q hq
  have hgroup' : HoldsGroup s q ((quarterOf s q).set j (b ^^^ oneBit k)) t'.eccBuf := by
    rw [← quarterOf_setPage_same s q hj]
    exact henc'.groups q hq
  have ⟨⟨e0, h0, hcol⟩, h1, h2⟩ := hgroup
  have ⟨⟨e0', h0', hcol'⟩, _, _⟩ := hgroup'
  have hmask := cpmtAt_oneBit (fun b => (ht b).2) hk b
  have hflip := parityFlips_oneBit (fun b => (ht b).1) hk b
  obtain ⟨h1', h2'⟩ := holdsGroup_lines_flip hflip hlen hgroup hgroup' h1 h2
  have hcum : s.cfg.cpMode = .cumulative → t'.eccBuf.read (3 * q) = some (e0 ^^^ mask) := fun hc => by
    rw [hc] at hcol hcol'
    rw [h0', isColumnByte_flip_cumulative hmask hlen hcol hcol']
    rfl
  refine ⟨t, t', e0, _, _, he, he', h0, h1, h2, hcum, fun hc => ?_, fun hc => ?_, h1', h2',
    fun a ha => henc.read_elsewhere hm hj henc' ha, fun hz href => ?_⟩
  · rw [hc] at hcol hcol'
    rw [h0', show e0' = 0x77 from hcol', show e0 = 0x77 from hcol]
  · rw [hc] at hcol hcol'
    rw [h0', isColumnByte_flip_shadowLast hmask hlen hcol hcol', length_quarterOf]
    rfl
  · have hempty : ∀ c ∈ quarterOf s q, cpmtAt s.cpmt c = 0 := fun c hc => by rw [(ht c).2, hz c hc]; decide
    obtain ⟨g0, g1, g2⟩ := holdsGroup_of_empty ht hm hempty (henc.groups q hq)
    have hx : lineIdx s.cfg.lpIndex q j = BitVec.ofNat 8 j := by rw [href]; rfl
    rw [h1', h2', hcum (by rw [href]; rfl), Option.some.inj (h0.symm.trans g0), Option.some.inj (h1.symm.trans g1),
      Option.some.inj (h2.symm.trans g2), hx, ← BitVec.xor_assoc, BitVec.xor_self]
    exact ⟨rfl, congrArg some BitVec.zero_xor, rfl⟩

/-- Settles O42: built tables are equal, and the closed form fixes the line bytes, and the column byte unless it is
free. -/
theorem groupDependsOnItsQuarterOnly : Obligations.GroupDependsOnItsQuarterOnly := by
  intro s s' q hq hs hs' ht ht' hcfg hquarter
  obtain ⟨t, he, hgroups, -⟩ := exec_epage_encodes hs
  obtain ⟨t', he', hgroups', -⟩ := exec_epage_encodes hs'
  have hgroup := hgroups q hq
  have hgroup' : HoldsGroup s q (quarterOf s q) t'.eccBuf := by
    rw [hquarter]
    exact holdsGroup_congr (hgroups' q hq) hcfg (pt_eq_of_tablesBuilt ht ht') (cpmt_eq_of_tablesBuilt ht ht')
      fun _ _ _ => rfl
  exact ⟨t, t', he, he', fun hm => holdsGroup_column_unique hm hgroup hgroup', holdsGroup_lines_unique hgroup hgroup'⟩

/-- Settles O45: J counts the bytes, and QBYTE and QEMIT ask J. -/
theorem quarterTakesExactly128Bytes : Obligations.QuarterTakesExactly128Bytes := by
  intro s q bytes hs hl
  have hexec := execAll_qinit_qbytes q hs hl
  obtain ⟨hf, htb, hq⟩ := hs
  have hf' : (fedQuarter q bytes s).fault = .noFault := (foldl_accumulate_fault bytes _).trans hf
  have htb' : (fedQuarter q bytes s).tb = true := (foldl_accumulate_tb bytes _).trans htb
  have hj := fedQuarter_j q bytes s
  refine ⟨_, hexec, hf', rfl, foldl_accumulate_q bytes _, ?_, fun hlt => ?_, fun heq => ⟨fun d => ?_, ?_⟩⟩
  · rw [hj, BitVec.toNat_ofNat]; omega
  · exact exec_qemit_of_incomplete hf' rfl (by bv_omega)
  · exact exec_qbyte_of_full d hf' htb' rfl (by rw [hj, heq]; rfl)
  · exact ⟨_, exec_of_effect (i := .qemit) hf' ⟨rfl, by rw [hj, heq]; decide, rfl⟩, hf'⟩

/-! ## The commands -/

/-- Settles O32: QINIT asks QOPEN alone, and STATUS shows the quarter it opened. -/
theorem qinitResult : Obligations.QinitResult := by
  refine ⟨by decide, fun q s hf => ⟨exec_qinit_of_busy q hf, fun hq => ?_⟩⟩
  exact ⟨_, exec_of_effect (i := .qinit q) hf ⟨hq, rfl⟩, rfl, status_opened rfl hf rfl⟩

/-- Settles O33: the three checks in order, and the byte accumulated. -/
theorem qbyteResult : Obligations.QbyteResult := by
  refine ⟨packWord_eq_or 0x7 0, fun d s hf => ⟨exec_of_tables_not_built rfl hf, exec_qbyte_of_closed d hf,
    exec_qbyte_of_full d hf, fun htb hq hj => ?_⟩⟩
  exact exec_of_effect (i := .qbyte d) hf ⟨htb, hq, hj, (accumulate_eq s d).symm⟩

/-- Settles O35: the two checks in order, and the group emitted, column byte by CP_MODE. -/
theorem qemitResult : Obligations.QemitResult := by
  refine ⟨rfl, fun s hf => ⟨exec_qemit_of_closed hf, exec_qemit_of_incomplete hf, fun hq hj => ?_⟩⟩
  have hnlt : ¬ s.j < 128 := by bv_omega
  refine ⟨_, exec_of_effect (i := .qemit) hf ⟨hq, hnlt, rfl⟩, rfl, ?_, drawsAfterEmit_eq s, ?_, ?_, fun a ha => ?_⟩
  · exact (emitGroup_read_column s s.q.toNat).trans ((if_pos rfl).trans (congrArg _ (columnByte_eq s)))
  · exact (emitGroup_read_line0 s s.q.toNat).trans (if_pos rfl)
  · exact (emitGroup_read_line1 s s.q.toNat).trans (if_pos rfl)
  · exact emitGroup_read_of_ne (by unfold groupBase groupBytes; omega)

/-- Settles O36: ECLR has no check but the faulted state's. -/
theorem eclrResult : Obligations.EclrResult := by
  refine ⟨rfl, fun s hf => ?_⟩
  refine ⟨eccCleared s, exec_eclr_of_noFault hf, eccCleared_frame s, fun a ha => ?_, fun a ha => ?_⟩
  · rw [eccCleared_read, if_pos ha]
  · rw [eccCleared_read, if_neg (Nat.not_lt.mpr ha)]

end Sys2Proof.Proofs

/-! # The faulted state: which fault a word is refused with, and what the block does once a fault is held

The layers, in order: fault entry and reads of locations that hold no value; the first check a command fails; presenting
a word; the faulted block; the records of the card image; the statements themselves. -/

namespace Sys2Proof.Machine

open Sys2Proof Sys2Proof.Safety Sys2Proof.Claims

variable {s t : State} {i : Instr} {w : Word} {x : HostAction}

/-! ## Fault entry (60_exceptions R172, R176) -/

theorem raise_eq (c : FaultCode) (s : State) :
    raise c s = { s with fault := if s.fault = .noFault then c else s.fault } := by
  rcases raise_cases c s with ⟨hf, e⟩ | ⟨hf, e⟩
  · rw [e, if_pos hf]
  · rw [e, if_neg hf]

theorem answerByte_none (s : State) :
    answerByte none s = { s with
      answers := s.answers ++ [.noValue]
      fault := if s.fault = .noFault then .uninitialisedRead else s.fault } :=
  raise_eq .uninitialisedRead (answer .noValue s)

/-! ## The first check that fails (60_exceptions R175) -/

/-- The code of the first check in the list whose failing condition is met. -/
def firstFailed (checks : List (FaultCode × Bool)) : FaultCode :=
  ((checks.find? (·.2)).map (·.1)).getD .noFault

@[simp] theorem firstFailed_nil : firstFailed [] = .noFault := rfl

@[simp] theorem firstFailed_cons (c : FaultCode) (b : Bool) (checks : List (FaultCode × Bool)) :
    firstFailed ((c, b) :: checks) = if b = true then c else firstFailed checks := by
  cases b <;> rfl

theorem faultAfter_of_faulted (w : Word) (hf : s.fault ≠ .noFault) : faultAfter w s = s.fault := if_neg hf

theorem faultAfter_of_illegal {e : Illegal} (hf : s.fault = .noFault) (hw : decode w = .error e) :
    faultAfter w s = .illegalCommand := by
  simp only [faultAfter, if_pos hf, hw]

theorem faultAfter_of_decode (hf : s.fault = .noFault) (hw : decode w = .ok i) :
    faultAfter w s = firstFailed (commandChecks i s) := by
  simp only [faultAfter, if_pos hf, hw, firstFailed]

/-- The page cannot be read whole when one of its bytes holds no value. -/
theorem any_isNone_eq_readRun_isNone (m : Memory) :
    ((List.range 512).any fun a => (m.read a).isNone) = (m.readRun 0 pageBytes).isNone := by
  have hrun : (m.readRun 0 pageBytes).isSome ↔ ∀ a < 512, (m.read a).isSome := by
    simpa only [Nat.zero_add, pageBytes] using Memory.readRun_isSome m 0 pageBytes
  rw [Bool.eq_iff_iff, ← Option.not_isSome, Bool.not_eq_true', ← Bool.not_eq_true, hrun]
  simp

/-- Two pages whose written bits agree are written whole together. -/
theorem any_isNone_congr {m m' : Memory} (h : ∀ a < 512, (m.read a).isSome = (m'.read a).isSome) :
    ((List.range 512).any fun a => (m.read a).isNone) = (List.range 512).any fun a => (m'.read a).isNone := by
  rw [Bool.eq_iff_iff, List.any_eq_true, List.any_eq_true]
  refine exists_congr fun a => and_congr_right fun ha => ?_
  rw [← Option.not_isSome, ← Option.not_isSome, h a (List.mem_range.mp ha)]

/-- The fault of a step that raises `c` where the check fails. -/
theorem fault_ite_raise {p : Prop} [Decidable p] (c : FaultCode) (hf : s.fault = .noFault) :
    (if p then raise c s else t).fault = if p then c else t.fault := by
  rw [apply_ite State.fault, raise_fault, if_pos hf]

/-- The checks of each command stand in its meaning in the order of R175. -/
theorem exec_fault_of_noFault (hf : s.fault = .noFault) (h : exec i s = .next t) :
    t.fault = firstFailed (commandChecks i s) := by
  cases i
  case tbuild | poppar | cpmgen | eclr =>
    cases h
    rw [unlessFaulted_of_noFault _ hf]
    exact hf
  case ptlkp | cpmlkp | qinit | qbyte | qemit =>
    cases h
    simp [unlessFaulted_of_noFault, fault_ite_raise, hf, commandChecks, needsTables, needsOpenQuarter,
      needsClosedQuarter, Instr.mnemonic]
  case epage =>
    cases h
    simp only [unlessFaulted_of_noFault, fault_ite_raise, hf, commandChecks, any_isNone_eq_readRun_isNone]
    cases s.pageBuf.readRun 0 pageBytes <;>
      simp [hf, needsTables, needsOpenQuarter, needsClosedQuarter, Instr.mnemonic]

theorem exec_fault (h : exec i s = .next t) :
    t.fault = if s.fault = .noFault then firstFailed (commandChecks i s) else s.fault := by
  split
  · next hf => exact exec_fault_of_noFault hf h
  · next hf => cases (exec_of_faulted i hf).symm.trans h; rfl

/-- Two commands with the same checks, from states with the same FAULT, leave the same FAULT. -/
theorem exec_fault_congr {i' : Instr} {s' t' : State} (h : exec i s = .next t) (h' : exec i' s' = .next t')
    (hf : s.fault = s'.fault) (hc : commandChecks i s = commandChecks i' s') :
    t.fault = t'.fault := by
  rw [exec_fault h, exec_fault h', hf, hc]

/-- A command that leaves a fault has had no effect. -/
theorem exec_eq_of_fault (hs : s.fault = .noFault) (ht : t.fault ≠ .noFault) (h : exec i s = .next t) :
    t = { s with fault := t.fault } := by
  rcases exec_cases h with ⟨hf, -⟩ | ⟨-, c, -, rfl⟩ | ⟨-, he⟩
  · exact absurd hs hf
  · rfl
  · exact absurd (he.frame.fault.trans hs) ht

/-! ## Presenting a word (60_exceptions R172, R173, R175) -/

theorem presentWord_of_decode (hw : decode w = .ok i) : presentWord w s = exec i s := act_command_of_decode hw

theorem presentWord_of_illegal {e : Illegal} (hw : decode w = .error e) :
    presentWord w s = .next (raise .illegalCommand s) := by
  simp only [presentWord, hw]

theorem presentWord_of_faulted (w : Word) (hf : s.fault ≠ .noFault) : presentWord w s = .next s := by
  cases hw : decode w with
  | ok i => rw [presentWord_of_decode hw, exec_of_faulted i hf]
  | error e => rw [presentWord_of_illegal hw, raise_of_faulted _ hf]

theorem presentWord_fault (h : presentWord w s = .next t) : t.fault = faultAfter w s := by
  by_cases hf : s.fault = .noFault
  · cases hw : decode w with
    | ok i =>
      rw [presentWord_of_decode hw] at h
      rw [exec_fault_of_noFault hf h, faultAfter_of_decode hf hw]
    | error e =>
      cases (presentWord_of_illegal hw).symm.trans h
      rw [raise_fault, if_pos hf, faultAfter_of_illegal hf hw]
  · cases (presentWord_of_faulted w hf).symm.trans h
    exact (faultAfter_of_faulted w hf).symm

theorem presentWord_eq_of_fault (hs : s.fault = .noFault) (ht : t.fault ≠ .noFault)
    (h : presentWord w s = .next t) : t = { s with fault := t.fault } := by
  cases hw : decode w with
  | ok i => exact exec_eq_of_fault hs ht ((presentWord_of_decode hw).symm.trans h)
  | error e =>
    cases (presentWord_of_illegal hw).symm.trans h
    rw [raise_of_noFault _ hs]

/-! ## The faulted block (60_exceptions R173, R174) -/

theorem act_eq_of_faulted (hf : s.fault ≠ .noFault) (hx : x ≠ .reset) (h : act x s = .next t) :
    t = { s with answers := t.answers } := by
  cases act_result h with
  | reset hr => exact absurd hr hx
  | effect _ _ hn => exact absurd hn hf
  | pageWrite _ _ _ hn => exact absurd hn hf
  | quiet hq =>
    obtain ⟨ht, hkeep⟩ := hq
    rw [hkeep hf] at ht
    exact ht

/-- `t` is `s` but for the host's queue and answers, which are the model's own fields (logs 1, 2). -/
def SameBlock (s t : State) : Prop := t = { s with pending := t.pending, answers := t.answers }

theorem SameBlock.refl (s : State) : SameBlock s s := rfl

theorem SameBlock.trans {u : State} (h : SameBlock s t) (h' : SameBlock t u) : SameBlock s u := by
  unfold SameBlock at h h'
  rw [h] at h'
  exact h'

theorem SameBlock.fault (h : SameBlock s t) : t.fault = s.fault := by rw [h]

/-- One step of a faulted block whose host does not reset. -/
theorem step_sameBlock_of_faulted (hf : s.fault ≠ .noFault) (hx : ∀ x ∈ s.pending.take 1, x ≠ .reset)
    (h : step s = .next t) : SameBlock s t ∧ t.pending = s.pending.tail := by
  rcases step_cases s with ⟨hp, e⟩ | ⟨x, rest, hp, e⟩
  · cases e.symm.trans h
    exact ⟨.refl _, by rw [hp]; rfl⟩
  · rw [e] at h
    have hne : x ≠ .reset := hx x (by rw [hp]; exact List.mem_singleton_self x)
    have ht := act_eq_of_faulted (s := { s with pending := rest }) hf hne h
    exact ⟨by unfold SameBlock; rw [ht], by rw [act_keeps_pending h, hp]; rfl⟩

theorem run_sameBlock_of_faulted {k : Nat} (hf : s.fault ≠ .noFault) (hx : ∀ x ∈ s.pending.take k, x ≠ .reset)
    (h : Host.Core.run Sys2Proof.core k s = .next t) : SameBlock s t := by
  induction k generalizing s with
  | zero => cases h; exact .refl _
  | succ k ih =>
    obtain ⟨u, hu⟩ := step_total s
    obtain ⟨hsame, hpend⟩ := step_sameBlock_of_faulted hf
      (fun x hm => hx x (List.take_subset_take_left _ (by omega) hm)) hu
    rw [run_succ_of_step hu] at h
    refine hsame.trans (ih (by rwa [hsame.fault]) (fun x hm => hx x ?_) h)
    rw [hpend, ← List.drop_one, List.take_drop] at hm
    rw [Nat.add_comm k 1]
    exact List.mem_of_mem_drop hm

/-! ## The records of the card image (60_exceptions R187) -/

section Records

variable {α : Type} {L : List (List α)} {m : Nat}

theorem length_flatten_of_length (h : ∀ l ∈ L, l.length = m) : L.flatten.length = L.length * m := by
  rw [List.length_flatten, List.map_congr_left h, List.map_const', List.sum_replicate, smul_eq_mul]

theorem drop_flatten_of_length (h : ∀ l ∈ L, l.length = m) {n : Nat} (hn : n ≤ L.length) :
    L.flatten.drop (m * n) = (L.drop n).flatten := by
  rw [← List.drop_sum_flatten, List.map_congr_left h, List.map_const', List.take_replicate, Nat.min_eq_left hn,
    List.sum_replicate, smul_eq_mul, Nat.mul_comm]

end Records

/-- Every record holds its page and its block, at their sizes. -/
def RecordsSized (records : List (List Byte × List Byte)) : Prop :=
  ∀ r ∈ records, r.1.length = 512 ∧ r.2.length = 16

variable {records : List (List Byte × List Byte)} {page ecc : List Byte} {n : Nat}

theorem length_imageRecord (h : RecordsSized records) :
    ∀ l ∈ records.map fun r => imageRecord r.1 r.2, l.length = 528 := by
  intro l hl
  obtain ⟨r, hr, rfl⟩ := List.mem_map.mp hl
  obtain ⟨hpage, hecc⟩ := h r hr
  rw [imageRecord, List.length_append, hpage, hecc]

theorem length_outputImage (h : RecordsSized records) : (outputImage records).length = records.length * 528 := by
  rw [outputImage, length_flatten_of_length (length_imageRecord h), List.length_map]

/-- From its offset on, the image is the record's page, its block, and the records after it. -/
theorem exists_drop_outputImage (h : RecordsSized records) (hn : records[n]? = some (page, ecc)) :
    ∃ rest, (outputImage records).drop (528 * n) = page ++ (ecc ++ rest) := by
  obtain ⟨hlt, hget⟩ := List.getElem?_eq_some_iff.mp hn
  refine ⟨outputImage (records.drop (n + 1)), ?_⟩
  rw [outputImage, drop_flatten_of_length (length_imageRecord h) (by rw [List.length_map]; exact hlt.le),
    ← List.map_drop, List.drop_eq_getElem_cons hlt, hget, List.map_cons, List.flatten_cons, imageRecord,
    List.append_assoc, outputImage]

end Sys2Proof.Machine

namespace Sys2Proof.Proofs

open Sys2Proof Sys2Proof.Machine Sys2Proof.Safety Sys2Proof.Claims

/-! ## The faulted state -/

/-- Settles O16, by induction on the number of steps: each takes one action off the queue, and none leaves the fault. -/
theorem faultedBlockFrozenUntilReset : Obligations.FaultedBlockFrozenUntilReset := fun _ _ _ hf hx h =>
  run_sameBlock_of_faulted hf hx h

/-- Settles O9: each read port answers no value, and fault entry keeps a fault already held. -/
theorem readsOfUnwrittenFault : Obligations.ReadsOfUnwrittenFault := by
  intro s
  refine ⟨fun h => ?_, fun a h => ?_, fun a h => ?_⟩
  · rw [resultRead, if_neg (Bool.eq_false_iff.mp h), answerByte_none]
  · rw [pageRead, h, answerByte_none]
  · rw [eccRead, h, answerByte_none]

/-- Settles O15: commands and page writes are discarded; a read is O10's or O9's; O20 keeps the fault. -/
theorem faultedStateDiscards : Obligations.FaultedStateDiscards := by
  intro s hf
  obtain ⟨hres, hpage, hecc, hstatus⟩ := readsReturnTheValueHeld s
  obtain ⟨hres', hpage', hecc'⟩ := readsOfUnwrittenFault s
  rw [if_neg hf] at hres' hpage' hecc'
  refine ⟨fun w => presentWord_of_faulted w hf, fun a v => ?_, hres, hpage, hecc, hres', hpage', hecc', hstatus,
    status_extractLsb'_fault s, fun x t hx h hrun => ?_, fun t h => ?_⟩
  · rw [pageWrite, unlessFaulted_of_faulted _ hf]
  · obtain ⟨-, hkeep⟩ := onlyResetClearsTbAndFault x s t hx h
    exact hf ((hkeep hf).symm.trans hrun)
  · cases h; rfl

/-! ## Fault entry -/

/-- Settles O18: an illegal word fails the first check, and each command makes its own in the order of R175. -/
theorem faultPriority : Obligations.FaultPriority := fun w s => by
  obtain ⟨t, ht⟩ := act_total (.command w) s
  exact ⟨t, ht, presentWord_fault ht⟩

/-- Settles O17: a word that leaves a fault moved FAULT alone, to the code of O18. -/
theorem faultEntryIsPrecise : Obligations.FaultEntryIsPrecise := by
  intro w s t hs h ht
  refine ⟨?_, ht⟩
  rw [← presentWord_fault h]
  exact presentWord_eq_of_fault hs ht h

/-- Settles O19: no check asks the data byte, and EPAGE's asks the page's written bits alone. -/
theorem dataValuesNeverFault : Obligations.DataValuesNeverFault := by
  refine ⟨fun mk hmk d d' s t t' h h' => exec_fault_congr h h' rfl ?_, fun s t t' page hpage h h' =>
    exec_fault_congr h h' rfl ?_⟩
  · simp only [List.mem_cons, List.not_mem_nil, or_false] at hmk
    rcases hmk with rfl | rfl | rfl | rfl | rfl <;> rfl
  · simp only [commandChecks, any_isNone_congr hpage]

/-! ## The host's card image -/

/-- Settles O59: every record has 528 bytes, so that the first `n` end where record `n` starts. -/
theorem outputImageLayout : Obligations.OutputImageLayout := by
  intro records hlen hsize
  refine ⟨by rw [length_outputImage hsize, hlen], fun n hn page ecc hget => ?_⟩
  obtain ⟨hpage, hecc⟩ := hsize _ (List.mem_of_getElem? hget)
  obtain ⟨rest, hrest⟩ := exists_drop_outputImage hsize hget
  refine ⟨rfl, ?_, ?_, rfl, Nat.div_lt_of_lt_mul hn⟩
  · rw [hrest, List.take_left' hpage]
  · rw [← List.drop_drop, hrest, List.drop_left' hpage, List.take_left' hecc]

end Sys2Proof.Proofs

/-! # Repeated commands, and a quarter that is open

The layers, in order: canonical buffers with the same bytes; a second pass over a page; EPAGE repeated, and EPAGE in an
open quarter; the commands that leave the quarter's registers; the statements themselves. -/

namespace Sys2Proof.Machine

open Sys2Proof Sys2Proof.Safety Sys2Proof.Claims

variable {s t : State} {i : Instr} {m m' : Memory} {page : List Byte} {size : Nat}

/-! ## Canonical buffers with the same bytes (20_memory R50) -/

/-- In canonical form a buffer lists exactly the bytes that are read from it. -/
theorem Memory.mem_iff_read (h : Memory.wf size m) (c : Host.Cell) : c ∈ m ↔ m.read c.1 = some c.2 := by
  obtain ⟨hrising, -⟩ := h
  induction m with
  | nil => simp
  | cons d rest ih =>
    obtain ⟨hlt, hrest⟩ := List.pairwise_cons.mp hrising
    rw [List.mem_cons, Memory.read, Prod.ext_iff]
    split
    · next hc =>
      have hnot : c ∉ rest := fun hmem => absurd (hlt c hmem) (by omega)
      simp [hc, hnot, eq_comm]
    · next hc => simp [hc, ih hrest]

/-- The canonical form is unique. -/
theorem Memory.eq_of_read (h : Memory.wf size m) (h' : Memory.wf size m') (hread : ∀ a, m.read a = m'.read a) :
    m = m' := by
  have ⟨hrising, _⟩ := h
  have ⟨hrising', _⟩ := h'
  refine List.Pairwise.eq_of_mem_iff (r := InvImage (· < ·) Prod.fst) hrising hrising' fun c => ?_
  rw [Memory.mem_iff_read h, Memory.mem_iff_read h', hread]

/-! ## A second pass over a page (41_ecc R143) -/

/-- LP0 is left as LP1 or its complement, by the last quarter's odd bytes. -/
theorem encodePage_lp0 (page : List Byte) (s : State) : (encodePage page s).lp0 =
    if (oddOffsets s.pt (pageQuarter page 3)).length % 2 = 0 then (encodePage page s).lp1
    else ~~~(encodePage page s).lp1 := by
  obtain ⟨-, hpt, -⟩ := foldl_encodeQuarter_config page [0, 1, 2] s
  rw [← hpt]
  exact foldl_seed_lp0 (pageQuarter page 3) 3 _

/-- Outside UNCONSTRAINED a second pass stores the groups that stand there already. -/
theorem encodePage_encodePage_read (hlen : page.length = 512) (hm : s.cfg.cpMode ≠ .unconstrained) (a : Nat) :
    (encodePage page (encodePage page s)).eccBuf.read a = (encodePage page s).eccBuf.read a := by
  by_cases ha : 12 ≤ a
  · exact encodePage_read_of_le page _ ha
  · have hq : (BitVec.ofNat 2 (a / 3)).toNat = a / 3 := by rw [BitVec.toNat_ofNat]; omega
    have hfirst := holdsGroup_encodePage hlen (BitVec.ofNat 2 (a / 3)) s
    have hsecond := holdsGroup_congr (holdsGroup_encodePage hlen (BitVec.ofNat 2 (a / 3)) (encodePage page s))
      (encodePage_cfg page s).symm (encodePage_pt page s).symm (encodePage_cpmt page s).symm fun _ _ _ => rfl
    exact holdsGroup_read_unique hm hsecond hfirst (by omega) (by omega)

/-- Outside UNCONSTRAINED a second pass over a page changes nothing: the last group fixes CP and LP1, and these LP0. -/
theorem encodePage_encodePage (hlen : page.length = 512) (hecc : Memory.wf eccBytes s.eccBuf)
    (hm : s.cfg.cpMode ≠ .unconstrained) : encodePage page (encodePage page s) = encodePage page s := by
  have hm' : (encodePage page s).cfg.cpMode ≠ .unconstrained := by rwa [encodePage_cfg]
  have hread := encodePage_encodePage_read hlen hm
  obtain ⟨-, h11, h9⟩ := encodePage_last_group page s
  obtain ⟨-, h11', h9'⟩ := encodePage_last_group page (encodePage page s)
  have heccBuf := Memory.eq_of_read (wf_encodePage page (wf_encodePage page hecc)) (wf_encodePage page hecc) hread
  have hcp : (encodePage page (encodePage page s)).cp = (encodePage page s).cp :=
    Option.some.inj (by rw [← h9' hm', ← h9 hm, hread])
  have hlp1 : (encodePage page (encodePage page s)).lp1 = (encodePage page s).lp1 :=
    Option.some.inj (by rw [← h11', ← h11, hread])
  have hlp0 : (encodePage page (encodePage page s)).lp0 = (encodePage page s).lp0 := by
    rw [encodePage_lp0, encodePage_lp0 page s, hlp1, encodePage_pt]
  rw [encodePage_frame page (encodePage page s), heccBuf, hcp, hlp0, hlp1, encodePage_q, encodePage_j _ _ hlen,
    encodePage_draws, if_neg hm', ← encodePage_q page s, ← encodePage_j page s hlen]

/-! ## EPAGE repeated, and EPAGE in an open quarter (70_reset R207, R208) -/

/-- EPAGE leaves a state ready for EPAGE, with the same page. -/
theorem exec_epage_repeated (hs : EpageReady s) : ∃ page, page.length = 512 ∧
    exec .epage s = .next (encodePage page s) ∧
    exec .epage (encodePage page s) = .next (encodePage page (encodePage page s)) := by
  obtain ⟨hf, htb, hq, hread⟩ := hs
  have hsome : (s.pageBuf.readRun 0 pageBytes).isSome :=
    (Memory.readRun_isSome _ _ _).mpr fun k hk => by rw [Nat.zero_add]; exact hread k hk
  obtain ⟨page, hp⟩ := Option.isSome_iff_exists.mp hsome
  refine ⟨page, Memory.readRun_length hp, exec_epage_of_run hf htb hq hp, exec_epage_of_run ?_ ?_ ?_ ?_⟩
  · rwa [encodePage_fault]
  · rwa [encodePage_tb]
  · rwa [encodePage_qopen]
  · rwa [encodePage_pageBuf]

theorem exec_epage_of_busy (hf : s.fault = .noFault) (hq : s.qopen = true) (htb : s.tb = true) :
    exec .epage s = .next { s with fault := .quarterBusy } := by
  simp only [exec, execEpage, unlessFaulted_of_noFault _ hf, htb, Bool.true_eq_false, if_false, if_pos hq,
    raise_of_noFault _ hf]

/-! ## The commands that leave the quarter's registers (70_reset R208) -/

/-- The quarter's registers hold the same values. -/
def SameQuarter (s t : State) : Prop :=
  t.cp = s.cp ∧ t.lp0 = s.lp0 ∧ t.lp1 = s.lp1 ∧ t.j = s.j ∧ t.q = s.q ∧ t.qopen = s.qopen

theorem exec_sameQuarter (hi : touchesQuarter i = false) (h : exec i s = .next t) : SameQuarter s t := by
  refine exec_keeps (P := SameQuarter s) (fun _ h => h) (fun _ he _ => ?_) ⟨rfl, rfl, rfl, rfl, rfl, rfl⟩ h
  obtain ⟨hcp, hlp0, hlp1⟩ := he.frame.accumulators hi
  exact ⟨hcp, hlp0, hlp1, he.frame.counter hi⟩

end Sys2Proof.Machine

namespace Sys2Proof.Proofs

open Sys2Proof Sys2Proof.Machine Sys2Proof.Safety Sys2Proof.Claims

/-! ## Repeats and interleavings -/

/-- Settles O44: the second pass stores what the first left, and TBUILD's effect depends on nothing it changes. -/
theorem repeatedEpageAndTbuildAreSafe : Obligations.RepeatedEpageAndTbuildAreSafe := by
  refine ⟨fun s t hs ⟨_, hecc⟩ h => ?_, fun s t hf h => ?_⟩
  · obtain ⟨page, hlen, hfirst, hsecond⟩ := exec_epage_repeated hs
    cases hfirst.symm.trans h
    refine ⟨fun hm => ?_, _, hsecond, fun a ha => ?_⟩
    · rw [hsecond, encodePage_encodePage hlen hecc hm]
    · rw [encodePage_read_of_le page _ ha, encodePage_read_of_le page s ha]
  · cases (exec_of_effect hf (effect_tbuild s)).symm.trans h
    exact exec_of_effect hf (effect_tbuild (tablesFilled s))

/-- Settles O49: QINIT and EPAGE ask QOPEN, and the six commands are those that leave the quarter's registers. -/
theorem openQuarterIsProtected : Obligations.OpenQuarterIsProtected := by
  refine ⟨fun s hf hq => ⟨fun q => exec_qinit_of_busy q hf hq, exec_epage_of_busy hf hq⟩, fun d i s t hi h => ?_⟩
  have htouch : touchesQuarter i = false := by
    simp only [List.mem_cons, List.not_mem_nil, or_false] at hi
    rcases hi with rfl | rfl | rfl | rfl | rfl | rfl <;> rfl
  exact exec_sameQuarter htouch h

end Sys2Proof.Proofs
